-- ==== Sys2Proof/Word.lean ====
section
/-! DEFINITION. The octet of the ports, the letter index, and the numbering of the six wheels. -/

namespace Sys2Proof

/-- An octet of a frame, 0..255 (R11, R60). -/
abbrev Byte := BitVec 8

/-- A letter by its letter index, `A = 0` to `Z = 25` (R15). -/
abbrev Letter := Fin 26

/-- The six wheels of an engine, numbered 1 to 6 as in every rule (R16). -/
inductive WheelIx
  | w1 | w2 | w3 | w4 | w5 | w6
  deriving DecidableEq, Repr

/-- All wheels, in wheel order 1 to 6. -/
def WheelIx.all : List WheelIx := [.w1, .w2, .w3, .w4, .w5, .w6]

/-- The two ports: the engine port of the Cipher Engine and the wheel port of the stand-alone Wheel unit (R61). -/
inductive Port
  | engine | wheel
  deriving DecidableEq, Repr

end Sys2Proof
end

