-- ==== Sys2Proof/Config.lean ====
section
/-! DEFINITION. The constants of the hardware: what the source fixes (R7) and what the spec fixes (R8). There is no free
value: the spec leaves no result open. -/

namespace Sys2Proof

/-- `N[i]`, the number of pins of wheel i (R7, R25). -/
def WheelIx.size : WheelIx → Nat
  | .w1 => 25
  | .w2 => 25
  | .w3 => 23
  | .w4 => 23
  | .w5 => 24
  | .w6 => 24

/-- The wheel immediately to the left of wheel i is wheel i-1; wheel 1 has none (R16). -/
def WheelIx.left : WheelIx → Option WheelIx
  | .w1 => none
  | .w2 => some .w1
  | .w3 => some .w2
  | .w4 => some .w3
  | .w5 => some .w4
  | .w6 => some .w5

namespace Config

/-- NWHEELS (R7). -/
abbrev nWheels : Nat := 6

/-- OFF_STEP, the peek offset read by the stepping rules (R7). -/
abbrev offStep : Int := -5

/-- OFF_KEY, the peek offset read by the keystream rule (R7). -/
abbrev offKey : Int := 8

/-- TRIG, the wheel whose pin at OFF_STEP gates the pre-step (R7). -/
abbrev trigWheel : WheelIx := .w6

/-- INVW, the wheel whose pin at OFF_KEY is the inversion bit (R7). -/
abbrev invWheel : WheelIx := .w6

/-- WEIGHT[1..5], with the wheel each weight belongs to; the fifth weight is 10, not 16 (R7). -/
def weights : List (WheelIx × Nat) := [(.w1, 1), (.w2, 2), (.w3, 4), (.w4, 8), (.w5, 10)]

/-- The order in which a stepping pass visits the wheels (R130). -/
def passOrder : List WheelIx := [.w6, .w5, .w4, .w3, .w2, .w1]

/-- INNER, the inner ring `PAKRHFIDZQNXMTBWJVGSOCLYUE` as letter indices, index 0 first (R45). -/
def inner : List Letter :=
  [15, 0, 10, 17, 7, 5, 8, 3, 25, 16, 13, 23, 12, 19, 1, 22, 9, 21, 6, 18, 14, 2, 11, 24, 20, 4]

/-- OUTER, the outer ring `FHRKAPEUYLCOSGVJWBTMXNQZDI` as letter indices, index 0 first (R46). -/
def outer : List Letter :=
  [5, 7, 17, 10, 0, 15, 4, 20, 24, 11, 2, 14, 18, 6, 21, 9, 22, 1, 19, 12, 23, 13, 16, 25, 3, 8]

/-- CODE_A, the character code of `A`; `Z` is 25 further on (R8, R64). -/
abbrev codeA : Nat := 0x41

/-- The character code of `Z` (R64). -/
abbrev codeZ : Nat := 0x5A

/-- MAXLEN, the most characters in one ENC or DEC command (R8). -/
abbrev maxLen : Nat := 65535

/-- WCAP, the most pins a stand-alone Wheel unit can hold (R8). -/
abbrev wheelCap : Nat := 32

end Config

end Sys2Proof
end

