-- ==== Sys2Proof/Syntax.lean ====
section
/-! DEFINITION. The instructions: one constructor per row of spec/opcode_table.json, seven commands and six
micro-operations. -/

namespace Sys2Proof

/-- One wheel record of a LOADKEY frame: the declared length, the position octet and the 32-bit pins value `v`, whose bit
j is pin j (R62, R66). The spare bits `j >= len` are part of the frame and ignored by the machine (R73). -/
structure KeyRecord where
  len : Byte
  pos : Byte
  pins : BitVec 32
  deriving DecidableEq, Repr

/-- The instruction set. The first seven are the commands of the two ports (R71); their count fields `nw`, `np` and `n`
are the lengths of the lists. The last six are the micro-operations, which have no frame and are performed inside ENC and
DEC (R18, R71). -/
inductive Instr
  /-- LOADKEY: `nw` wheel records, record r for wheel r+1 (R66, R100). -/
  | loadkey (recs : List KeyRecord)
  /-- REPOS: `np` position octets, position r for wheel r+1 (R67, R108). -/
  | repos (ps : List Byte)
  /-- ENC: the character octets of the message, first letter first (R68, R103). -/
  | enc (cs : List Byte)
  /-- DEC: the character octets of the message (R68, R106). -/
  | dec (cs : List Byte)
  /-- W.LOAD: length, position octet, 32-bit pins value (R69, R91). -/
  | wLoad (len pos : Byte) (pins : BitVec 32)
  /-- W.PEEK: the signed offset octet (R69, R92). -/
  | wPeek (off : Byte)
  /-- W.STEP: no operand (R69, R93). -/
  | wStep
  /-- CHAR: one letter index (R120). -/
  | char (c : Letter)
  /-- STEPALL (R130). -/
  | stepall
  /-- PRESTEP (R131). -/
  | prestep
  /-- POSTSTEP (R132). -/
  | poststep
  /-- PRN (R140). -/
  | prn
  /-- SUB: a letter and a digit 0..25 (R150). -/
  | sub (c : Letter) (digit : Nat)
  deriving DecidableEq, Repr

/-- The port whose command an instruction is; a micro-operation is no command of any port (R71). -/
def Instr.port : Instr → Option Port
  | .loadkey _ => some .engine
  | .repos _ => some .engine
  | .enc _ => some .engine
  | .dec _ => some .engine
  | .wLoad _ _ _ => some .wheel
  | .wPeek _ => some .wheel
  | .wStep => some .wheel
  | .char _ => none
  | .stepall => none
  | .prestep => none
  | .poststep => none
  | .prn => none
  | .sub _ _ => none

end Sys2Proof
end

