-- ==== Sys2Proof/WellFormed.lean ====
section
/-! DEFINITION. Which instruction terms are expressible: a count fits its field, a digit is in range. -/

namespace Sys2Proof

/-- An instruction is well formed when its counts fit their fields (`nw` and `np` one octet, `n` two octets with MAXLEN =
65535: R63, R8) and a SUB digit is in 0..25 (R150). Whether the arguments are legal is the machine's own test. -/
def Instr.wellFormed : Instr → Bool
  | .loadkey recs => decide (recs.length ≤ 255)
  | .repos ps => decide (ps.length ≤ 255)
  | .enc cs => decide (cs.length ≤ Config.maxLen)
  | .dec cs => decide (cs.length ≤ Config.maxLen)
  | .wLoad _ _ _ => true
  | .wPeek _ => true
  | .wStep => true
  | .char _ => true
  | .stepall => true
  | .prestep => true
  | .poststep => true
  | .prn => true
  | .sub _ digit => decide (digit ≤ 25)

end Sys2Proof
end

