-- ==== Sys2Proof/Decode.lean ====
section
/-! DEFINITION. From frames to instructions and back: the decoder of each port, total on every octet sequence and refusing
by name, then the encoder, written from the same formats (30_encoding.md sections 2 to 5). -/

namespace Sys2Proof

/-- Why a frame is no command of its port. All three answer BadCommand (R72, R164). -/
inductive DecodeError
  /-- `L = 0` (R72). -/
  | emptyFrame
  /-- Octet 0 is not in the port's list (R72). -/
  | illegalOpcode (op : Byte)
  /-- The frame cannot hold its count field, or its length is not the one its format gives (R70). -/
  | wrongLength
  deriving DecidableEq, Repr

/-- The 32-bit value of four pin octets `q0, q1, q2, q3`: `v = q0 + 256*q1 + 65536*q2 + 16777216*q3`, so that pin j is
bit j of v (R62). -/
def pinsOfOctets (q0 q1 q2 q3 : Byte) : BitVec 32 := q3 ++ q2 ++ q1 ++ q0

/-- The four pin octets of a 32-bit value, `q0` first (R62). -/
def octetsOfPins (v : BitVec 32) : List Byte :=
  [v.extractLsb' 0 8, v.extractLsb' 8 8, v.extractLsb' 16 8, v.extractLsb' 24 8]

/-- A 16-bit count from its two octets, low octet first (R62). -/
def countOfOctets (lo hi : Byte) : Nat := lo.toNat + 256 * hi.toNat

/-- The two octets of a 16-bit count, low octet first (R62). -/
def octetsOfCount (n : Nat) : List Byte := [BitVec.ofNat 8 n, BitVec.ofNat 8 (n / 256)]

/-- The wheel records of a LOADKEY body, six octets each: `len`, `pos`, four pin octets (R66). -/
def decodeRecords : List Byte → Option (List KeyRecord)
  | [] => some []
  | len :: pos :: q0 :: q1 :: q2 :: q3 :: rest =>
    match decodeRecords rest with
    | some rs => some (⟨len, pos, pinsOfOctets q0 q1 q2 q3⟩ :: rs)
    | none => none
  | _ => none

/-- The six octets of a wheel record (R66). -/
def KeyRecord.octets (r : KeyRecord) : List Byte := r.len :: r.pos :: octetsOfPins r.pins

/-- Format K after the opcode: `nw`, then `nw` records; frame length `2 + 6*nw` (R66, R70). -/
def decodeFormatK : List Byte → Except DecodeError Instr
  | [] => .error .wrongLength
  | nw :: body =>
    if body.length = 6 * nw.toNat then
      match decodeRecords body with
      | some recs => .ok (.loadkey recs)
      | none => .error .wrongLength
    else .error .wrongLength

/-- Format P after the opcode: `np`, then `np` positions; frame length `2 + np` (R67, R70). -/
def decodeFormatP : List Byte → Except DecodeError Instr
  | [] => .error .wrongLength
  | np :: ps => if ps.length = np.toNat then .ok (.repos ps) else .error .wrongLength

/-- Format M after the opcode: `n` in two octets, then `n` characters; frame length `3 + n` (R68, R70). -/
def decodeFormatM (mk : List Byte → Instr) : List Byte → Except DecodeError Instr
  | lo :: hi :: cs => if cs.length = countOfOctets lo hi then .ok (mk cs) else .error .wrongLength
  | _ => .error .wrongLength

/-- Format WL after the opcode: `len`, `pos`, four pin octets; frame length 7 (R69). -/
def decodeFormatWL : List Byte → Except DecodeError Instr
  | [len, pos, q0, q1, q2, q3] => .ok (.wLoad len pos (pinsOfOctets q0 q1 q2 q3))
  | _ => .error .wrongLength

/-- Format WP after the opcode: `off`; frame length 2 (R69). -/
def decodeFormatWP : List Byte → Except DecodeError Instr
  | [off] => .ok (.wPeek off)
  | _ => .error .wrongLength

/-- Format WS after the opcode: nothing; frame length 1 (R69). -/
def decodeFormatWS : List Byte → Except DecodeError Instr
  | [] => .ok .wStep
  | _ => .error .wrongLength

/-- The engine port's opcode map (R71); every other opcode is illegal there, the wheel opcodes included (R72). -/
def decodeEngine (op : Byte) (rest : List Byte) : Except DecodeError Instr :=
  if op = 0x01 then decodeFormatK rest
  else if op = 0x02 then decodeFormatP rest
  else if op = 0x10 then decodeFormatM .enc rest
  else if op = 0x11 then decodeFormatM .dec rest
  else .error (.illegalOpcode op)

/-- The wheel port's opcode map (R71, R72). -/
def decodeWheel (op : Byte) (rest : List Byte) : Except DecodeError Instr :=
  if op = 0x21 then decodeFormatWL rest
  else if op = 0x22 then decodeFormatWP rest
  else if op = 0x23 then decodeFormatWS rest
  else .error (.illegalOpcode op)

/-- The decoder: a frame delivered whole on a port is one command of that port or is refused by name (R60, R61, R164). -/
def decode (p : Port) : List Byte → Except DecodeError Instr
  | [] => .error .emptyFrame
  | op :: rest =>
    match p with
    | .engine => decodeEngine op rest
    | .wheel => decodeWheel op rest

/-- The encoder: the frame of a command (R66 to R69); a micro-operation has no frame (R71). -/
def encode : Instr → Option (List Byte)
  | .loadkey recs => some (0x01 :: BitVec.ofNat 8 recs.length :: recs.flatMap KeyRecord.octets)
  | .repos ps => some (0x02 :: BitVec.ofNat 8 ps.length :: ps)
  | .enc cs => some (0x10 :: (octetsOfCount cs.length ++ cs))
  | .dec cs => some (0x11 :: (octetsOfCount cs.length ++ cs))
  | .wLoad len pos pins => some (0x21 :: len :: pos :: octetsOfPins pins)
  | .wPeek off => some [0x22, off]
  | .wStep => some [0x23]
  | .char _ => none
  | .stepall => none
  | .prestep => none
  | .poststep => none
  | .prn => none
  | .sub _ _ => none

/-- The length a well-formed frame has, from its opcode and its count field (R70): `b1` and `b2` are octets 1 and 2, read
only where the format has its count there. Nothing for an opcode of neither port. -/
def formatLength (op b1 b2 : Byte) : Option Nat :=
  if op = 0x01 then some (2 + 6 * b1.toNat)
  else if op = 0x02 then some (2 + b1.toNat)
  else if op = 0x10 ∨ op = 0x11 then some (3 + countOfOctets b1 b2)
  else if op = 0x21 then some 7
  else if op = 0x22 then some 2
  else if op = 0x23 then some 1
  else none

/-- The port in whose list an opcode stands, the engine port for the opcodes of neither (R71). -/
def portOfOpcode (op : Byte) : Port :=
  if op = 0x21 ∨ op = 0x22 ∨ op = 0x23 then .wheel else .engine

/-- Octet k of an instruction given as the number `w` of `nbits` bits, octet 0 in its lowest eight; the bits above `nbits`
are 0. -/
def tableOctet (nbits w k : Nat) : Byte := BitVec.ofNat 8 ((w % 2 ^ nbits) / 2 ^ (8 * k))

/-- The frame an opcode-table word stands for, with the port it is delivered on: the given octets, and octets of zeros
after them up to the length the frame's format gives (log entry 10). -/
def tableFrame (nbits w : Nat) : Port × List Byte :=
  let octet := tableOctet nbits w
  let given := (nbits + 7) / 8
  let len :=
    match formatLength (octet 0) (octet 1) (octet 2) with
    | some l => max given l
    | none => max given 1
  (portOfOpcode (octet 0), (List.range len).map octet)

/-- The instruction the decoder reads from an opcode-table word. -/
def decodeTableWord (nbits w : Nat) : Option Instr :=
  match decode (tableFrame nbits w).1 (tableFrame nbits w).2 with
  | .ok i => some i
  | .error _ => none

end Sys2Proof
end

