-- ==== Sys2Proof/Machine/Operands.lean ====
section
/-! DEFINITION. Operand forms: signed octets, position tests, wheel indices, character codes, ring reads
(00_scope.md section 6, 30_encoding.md section 2). -/

namespace Sys2Proof.Machine

/-- `sext_8(v)`: `v` if `v < 128`, else `v - 256` (R11). -/
def sext8 (v : Byte) : Int := if v.toNat < 128 then (v.toNat : Int) else (v.toNat : Int) - 256

/-- A `pos` field is legal for a wheel of the given size: `0 <= pos < size`, read as `sext_8` (R63). -/
def posLegal (size : Nat) (pos : Byte) : Bool := decide (0 ≤ sext8 pos) && decide (sext8 pos < (size : Int))

/-- The 5-bit position register value of a legal `pos` field (R21). -/
def posValue (pos : Byte) : BitVec 5 := pos.setWidth 5

/-- The effective index of a pin read, `(pos + off) mod size` with the never-negative modulo (R12, R41). -/
def pinIndex (size pos : Nat) (off : Int) : Nat := (((pos : Int) + off) % (size : Int)).toNat

/-- The position after one step, `(pos + 1) mod size` (R93). -/
def nextPos (size pos : Nat) : Nat := (pos + 1) % size

/-- The pin register of a wheel of the given size, from a 32-bit pins value: pin j is bit j, the bits at and above the size
are ignored (R62, R73). -/
def pinsBelow (size : Nat) (v : BitVec 32) : BitVec 32 := v &&& BitVec.ofNat 32 (2 ^ size - 1)

/-- A character octet is a letter of the fixed alphabet: 0x41..0x5A (R64). -/
def isLetterCode (c : Byte) : Bool := decide (Config.codeA ≤ c.toNat) && decide (c.toNat ≤ Config.codeZ)

/-- The letter index `code - 0x41` of a character octet (R64). It is applied to validated octets only, where the reduction
modulo 26 that makes it a letter of any octet does nothing (R104). -/
def letterOf (c : Byte) : Letter := Fin.ofNat 26 (c.toNat - Config.codeA)

/-- The character code `0x41 + o` of a letter (R104). -/
def codeOf (o : Letter) : Byte := BitVec.ofNat 8 (Config.codeA + o.val)

/-- The letter in cell j of a ring (R45, R46). Every rule reads a cell 0..25. -/
def ringAt (ring : List Letter) (j : Nat) : Letter := ring.getD j 0

/-- `idx_in(c)`, the position of letter c in INNER (R15, R45). -/
def idxIn (c : Letter) : Nat := Config.inner.idxOf c

/-- `idx_out(c)`, the position of letter c in OUTER (R15, R46). -/
def idxOut (c : Letter) : Nat := Config.outer.idxOf c

end Sys2Proof.Machine
end

