-- ==== Sys2Proof/Machine/State.lean ====
section
/-! DEFINITION. The state as plain data: the Cipher Engine's registers, the stand-alone Wheel unit's registers, and the
model's own interface fields; the state after reset; the reasons a step can stop. -/

namespace Sys2Proof.Machine

/-- The six position registers `P[1]` to `P[6]`, five bits each (R20, R21). -/
structure Positions where
  p1 : BitVec 5
  p2 : BitVec 5
  p3 : BitVec 5
  p4 : BitVec 5
  p5 : BitVec 5
  p6 : BitVec 5
  deriving DecidableEq, Repr

/-- The six pin registers `K[1]` to `K[6]`, `N[i]` bits each; bit j is pin j, 1 means active (R20, R24). They are the
address spaces PIN_1 to PIN_6 (R40). -/
structure PinRegs where
  k1 : BitVec 25
  k2 : BitVec 25
  k3 : BitVec 23
  k4 : BitVec 23
  k5 : BitVec 24
  k6 : BitVec 24
  deriving DecidableEq, Repr

/-- The whole architectural state of one Cipher Engine (R20). -/
structure Engine where
  keyed : Bool
  pins : PinRegs
  pos : Positions
  deriving DecidableEq, Repr

/-- The state of the stand-alone Wheel unit: `w.loaded`, `w.size`, `w.pins`, `w.pos` (R30). Bits of `pins` at and above
`size` are no pins; W.LOAD writes them 0, so that equal wheels are equal data (R73, V6). -/
structure WheelUnit where
  loaded : Bool
  size : BitVec 6
  pins : BitVec 32
  pos : BitVec 5
  deriving DecidableEq, Repr

/-- What reaches the hardware from outside: a command frame delivered whole on a port (R60), or the reset input of one of
the two units (R190). -/
inductive Input
  | frame (port : Port) (octets : List Byte)
  | reset (unit : Port)
  deriving DecidableEq, Repr

/-- A response frame with the port it is given on (R60, R74). -/
structure Response where
  port : Port
  octets : List Byte
  deriving DecidableEq, Repr

/-- The state of the model. `engine` and `wheel` are the spec's registers. The other three are the MODEL'S OWN: `inputs`,
what the owners deliver next, in order (log entry 3); `response`, what the last step answered, if it answered (log entry
4); `micro`, the value the last micro-operation executed by itself returned to the sequencer, idle otherwise (R27, R29,
log entry 5). -/
structure State where
  engine : Engine
  wheel : WheelUnit
  inputs : List Input
  response : Option Response
  micro : Option Nat
  deriving DecidableEq, Repr

/-- Reasons for which the machine stops with a fault: NONE. The spec's four faults are responses after which the block
goes on (R169, R170), and there is no state in which it is stuck (log entry 7). -/
inductive Fault
  deriving DecidableEq, Repr

/-- Reasons for which a step is refused. -/
inductive Refusal
  /-- Raised by an arm of `exec` whose instruction has no meaning yet; safe: nothing is claimed of it. No arm raises it:
  every instruction has its meaning. -/
  | notModelled (mnemonic : String)
  deriving DecidableEq, Repr

/-- The position registers after reset: unspecified in R33. DESIGN CHOICE (log entry 1, unsafe): zero. -/
def Positions.reset : Positions := ⟨0, 0, 0, 0, 0, 0⟩

/-- The pin registers after reset: unspecified in R33. DESIGN CHOICE (log entry 1, unsafe): zero. -/
def PinRegs.reset : PinRegs := ⟨0, 0, 0, 0, 0, 0⟩

/-- The engine after reset: `keyed = 0` (R33, R190). -/
def Engine.reset : Engine := ⟨false, PinRegs.reset, Positions.reset⟩

/-- The Wheel unit after reset: `w.loaded = 0`; the rest unspecified in R33. DESIGN CHOICE (log entry 2, unsafe): zero. -/
def WheelUnit.reset : WheelUnit := ⟨false, 0, 0, 0⟩

/-- The machine right after reset: both units reset, no command outstanding, no response pending, the sequencer idle
(R33, R190). -/
def State.reset : State := ⟨Engine.reset, WheelUnit.reset, [], none, none⟩

end Sys2Proof.Machine
end

