-- ==== Sys2Proof/Machine/Ops.lean ====
section
/-! DEFINITION. The named operations over the registers, the address spaces, the ports and the reset inputs, and the one
operation that raises a fault. -/

namespace Sys2Proof.Machine

/-- Reads `P[i]` (R14). -/
def Positions.get (p : Positions) : WheelIx → BitVec 5
  | .w1 => p.p1
  | .w2 => p.p2
  | .w3 => p.p3
  | .w4 => p.p4
  | .w5 => p.p5
  | .w6 => p.p6

/-- Writes `P[i]` (R14). -/
def Positions.set (p : Positions) (i : WheelIx) (v : BitVec 5) : Positions :=
  match i with
  | .w1 => { p with p1 := v }
  | .w2 => { p with p2 := v }
  | .w3 => { p with p3 := v }
  | .w4 => { p with p4 := v }
  | .w5 => { p with p5 := v }
  | .w6 => { p with p6 := v }

/-- Reads `K[i][j]`, pin j of wheel i (R14, R24). -/
def PinRegs.pin (k : PinRegs) (i : WheelIx) (j : Nat) : Bool :=
  match i with
  | .w1 => k.k1.getLsbD j
  | .w2 => k.k2.getLsbD j
  | .w3 => k.k3.getLsbD j
  | .w4 => k.k4.getLsbD j
  | .w5 => k.k5.getLsbD j
  | .w6 => k.k6.getLsbD j

/-- `peek(i, off) = K[i][(P[i] + off) mod N[i]]` (R14, R92). It writes nothing (R23). -/
def Engine.peek (e : Engine) (i : WheelIx) (off : Int) : Bool :=
  e.pins.pin i (pinIndex i.size (e.pos.get i).toNat off)

/-- `step(i)`: `P[i] <- (P[i] + 1) mod N[i]` (R14, R93). -/
def Engine.step (e : Engine) (i : WheelIx) : Engine :=
  { e with pos := e.pos.set i (BitVec.ofNat 5 (nextPos i.size (e.pos.get i).toNat)) }

/-- `peek` of the Wheel unit: `w.pins[(w.pos + off) mod w.size]`, for every integer offset (R92). -/
def WheelUnit.peek (w : WheelUnit) (off : Int) : Bool :=
  w.pins.getLsbD (pinIndex w.size.toNat w.pos.toNat off)

/-- `step` of the Wheel unit: `w.pos <- (w.pos + 1) mod w.size` (R93). -/
def WheelUnit.step (w : WheelUnit) : WheelUnit :=
  { w with pos := BitVec.ofNat 5 (nextPos w.size.toNat w.pos.toNat) }

/-- The address spaces of the hardware (R40): the six pin spaces, the two ring ROMs, and the space PIN of the stand-alone
Wheel unit. -/
inductive Space
  | pin (i : WheelIx)
  | inner
  | outer
  | wheelPin
  deriving DecidableEq, Repr

/-- The number of cells of an address space (R40). -/
def State.cells (s : State) : Space → Nat
  | .pin i => i.size
  | .inner => 26
  | .outer => 26
  | .wheelPin => s.wheel.size.toNat

/-- `MemRead(space, addr, n)`: the cell at an index of an address space, a bit of a pin space or a letter index of a ring
(R14, R40); nothing at an index the space does not have. -/
def State.memRead (s : State) (sp : Space) (j : Nat) : Option Nat :=
  if j < s.cells sp then
    match sp with
    | .pin i => some (s.engine.pins.pin i j).toNat
    | .inner => some (ringAt Config.inner j).val
    | .outer => some (ringAt Config.outer j).val
    | .wheelPin => some (s.wheel.pins.getLsbD j).toNat
  else none

/-- Replaces the engine's registers. -/
def State.withEngine (s : State) (e : Engine) : State := { s with engine := e }

/-- Replaces the Wheel unit's registers. -/
def State.withWheel (s : State) (w : WheelUnit) : State := { s with wheel := w }

/-- Replaces what is still to be delivered. -/
def State.withInputs (s : State) (inputs : List Input) : State := { s with inputs := inputs }

/-- The value a micro-operation returns to the sequencer (log entry 5). -/
def State.returning (s : State) (v : Nat) : State := { s with micro := some v }

/-- Gives a response on a port (R60, R74). -/
def State.respond (s : State) (p : Port) (octets : List Byte) : State :=
  { s with response := some ⟨p, octets⟩ }

/-- The four faults (R160). -/
inductive FaultKind
  | invalidArgument | invalidCharacter | notKeyed | badCommand
  deriving DecidableEq, Repr

/-- The status octet of a fault (R74, R160). -/
def FaultKind.code : FaultKind → Byte
  | .invalidArgument => 0x01
  | .invalidCharacter => 0x02
  | .notKeyed => 0x03
  | .badCommand => 0x04

/-- The status octet OK (R74). -/
def statusOk : Byte := 0x00

/-- `respond OK` with the payload of the command (R74). -/
def State.respondOk (s : State) (p : Port) (payload : List Byte) : State := s.respond p (statusOk :: payload)

/-- `raise <Fault>`, taking a fault: no register, flag or pin is written, and the response is the single status octet; there
is no handler, vector, saved register or mode, and nothing to return from (R14, R169, R171). -/
def State.raise (s : State) (p : Port) (f : FaultKind) : State := s.respond p [f.code]

/-- Takes the next input, if there is one: the port accepts one command at a time, in order (R50, R60). -/
def State.takeInput (s : State) : Option (Input × State) :=
  match s.inputs with
  | [] => none
  | x :: rest => some (x, s.withInputs rest)

/-- Between commands the block does nothing; a step with no input gives no response (R171). -/
def State.idle (s : State) : State := { s with response := none }

/-- The reset input of a unit: the unit goes to its reset state and no response is pending; that of the engine leaves the
engine's sequencer idle, whatever value it held (R33, R190, log entries 5 and 9). -/
def State.resetUnit (s : State) (u : Port) : State :=
  match u with
  | .engine => { s with engine := Engine.reset, micro := none, response := none }
  | .wheel => { s with wheel := WheelUnit.reset, response := none }

/-- The owner of a port delivers a frame: it comes before everything not yet delivered. -/
def State.deliver (s : State) (p : Port) (octets : List Byte) : State :=
  s.withInputs (.frame p octets :: s.inputs)

end Sys2Proof.Machine
end

