-- ==== Sys2Proof/Machine/Flags.lean ====
section
/-! DEFINITION. The flags `keyed` and `w.loaded`: the tests commands make of them, and the status outputs. There are no
condition codes and no sticky fault flag (R26). -/

namespace Sys2Proof.Machine

/-- The test of REPOS, ENC and DEC, made after the frame's and before the command's own: NotKeyed while `keyed = 0`
(R102, R163). -/
def State.whenKeyed (s : State) (t : State) : State :=
  if s.engine.keyed then t else s.raise .engine .notKeyed

/-- The test of W.PEEK and W.STEP: NotKeyed while `w.loaded = 0` (R90, R163). -/
def State.whenLoaded (s : State) (t : State) : State :=
  if s.wheel.loaded then t else s.raise .wheel .notKeyed

/-- The status output `keyed` (R28). -/
def State.keyedOut (s : State) : Bool := s.engine.keyed

/-- The status output `pos_i`: `P[i]` while `keyed = 1`, nothing to rely on while `keyed = 0` (R28, V2, log entry 8). -/
def State.posOut (s : State) (i : WheelIx) : Option (BitVec 5) :=
  if s.engine.keyed then some (s.engine.pos.get i) else none

end Sys2Proof.Machine
end

