-- ==== Sys2Proof/Machine/Keystream.lean ====
section
/-! DEFINITION. PRN, the keystream digit (44_keystream.md). -/

namespace Sys2Proof.Machine

/-- The weighted sum of the five bits `inv xor x_i` (R140): an ordinary integer sum, not reduced. -/
def weightedSum (inv : Bool) (x : WheelIx → Bool) : Nat :=
  (Config.weights.map fun w => w.2 * (xor inv (x w.1)).toNat).sum

/-- PRN: the pins at +8, those of wheels 1 to 5 inverted by that of wheel 6, summed with the weights 1, 2, 4, 8, 10
(R140). It writes nothing. -/
def Engine.prn (e : Engine) : Nat :=
  weightedSum (e.peek Config.invWheel Config.offKey) fun i => e.peek i Config.offKey

/-- PRN as an instruction of the table: its result goes to the sequencer (R140). -/
def execPrn (s : State) : Host.Outcome State Fault Refusal := .next (s.returning s.engine.prn)

end Sys2Proof.Machine
end

