-- ==== Sys2Proof/Machine/Stepping.lean ====
section
/-! DEFINITION. The stepping passes STEPALL, PRESTEP and POSTSTEP (43_stepping.md). -/

namespace Sys2Proof.Machine

/-- The test of the extra step of wheel i: it has a left neighbour, whose pin at -5 is active (R130). -/
def Engine.takesExtra (e : Engine) (i : WheelIx) : Bool :=
  match i.left with
  | some l => e.peek l Config.offStep
  | none => false

/-- The body of STEPALL's loop at wheel i: the extra step of wheel i if the test, made once, allows it, then its normal
step; the wheel of the loop takes both (R130, R134). -/
def Engine.passAt (e : Engine) (i : WheelIx) : Engine :=
  (if e.takesExtra i then e.step i else e).step i

/-- STEPALL: one pass over the wheels in the order 6, 5, 4, 3, 2, 1 (R130). -/
def Engine.stepAll (e : Engine) : Engine := Config.passOrder.foldl Engine.passAt e

/-- PRESTEP: a pass if wheel 6's pin at -5 is active; the guard is read once, before any wheel moves (R131). -/
def Engine.preStep (e : Engine) : Engine :=
  if e.peek Config.trigWheel Config.offStep then e.stepAll else e

/-- POSTSTEP: a pass, without a guard (R132). -/
def Engine.postStep (e : Engine) : Engine := e.stepAll

/-- STEPALL as an instruction of the table (R130). -/
def execStepall (s : State) : Host.Outcome State Fault Refusal := .next (s.withEngine s.engine.stepAll)

/-- PRESTEP as an instruction of the table (R131). -/
def execPrestep (s : State) : Host.Outcome State Fault Refusal := .next (s.withEngine s.engine.preStep)

/-- POSTSTEP as an instruction of the table (R132). -/
def execPoststep (s : State) : Host.Outcome State Fault Refusal := .next (s.withEngine s.engine.postStep)

end Sys2Proof.Machine
end

