-- ==== Sys2Proof/Machine/Substitution.lean ====
section
/-! DEFINITION. SUB, the substitution transform (45_substitution.md). -/

namespace Sys2Proof.Machine

/-- `SUB(c, prn) = OUTER[(idx_in(c) + prn) mod 26]` (R150); one formula for both directions (R151). -/
def subst (c : Letter) (digit : Nat) : Letter := ringAt Config.outer ((idxIn c + digit) % 26)

/-- SUB as an instruction of the table: its result goes to the sequencer (R150). -/
def execSub (c : Letter) (digit : Nat) (s : State) : Host.Outcome State Fault Refusal :=
  .next (s.returning (subst c digit).val)

end Sys2Proof.Machine
end

