-- ==== Sys2Proof/Machine/Transform.lean ====
section
/-! DEFINITION. CHAR, the per-character transform, and its repetition over a message (42_char_transform.md). -/

namespace Sys2Proof.Machine

/-- CHAR: PRESTEP, PRN, SUB, POSTSTEP, in that order, which is part of the behaviour (R120, R121). Answers the output letter
and the engine after it. -/
def Engine.char (e : Engine) (c : Letter) : Letter × Engine :=
  let e1 := e.preStep
  let digit := e1.prn
  let o := subst c digit
  (o, e1.postStep)

/-- The processing pass of `Message`: CHAR on each letter in message order, each from the positions the one before it left
(R104). Answers the output letters and the engine after them. -/
def Engine.process (e : Engine) : List Letter → List Letter × Engine
  | [] => ([], e)
  | c :: cs =>
    let r := e.char c
    let rs := r.2.process cs
    (r.1 :: rs.1, rs.2)

/-- CHAR as an instruction of the table: its result goes to the sequencer (R120). -/
def execChar (c : Letter) (s : State) : Host.Outcome State Fault Refusal :=
  .next ((s.withEngine (s.engine.char c).2).returning (s.engine.char c).1.val)

end Sys2Proof.Machine
end

