-- ==== Sys2Proof/Machine/EngineCommands.lean ====
section
/-! DEFINITION. The commands of the engine port: LOADKEY, REPOS, ENC, DEC (41_engine_commands.md). -/

namespace Sys2Proof.Machine

/-- A wheel record is legal for wheel i: its declared length is `N[i]` and its position is in range (R100). -/
def recordLegal (i : WheelIx) (r : KeyRecord) : Bool :=
  decide (r.len.toNat = i.size) && posLegal i.size r.pos

/-- The engine six wheel records key: pin j of wheel i is bit j of its pins value, the bits at and above `N[i]` are ignored,
and the position is that of the record (R100). -/
def keyedEngine (r1 r2 r3 r4 r5 r6 : KeyRecord) : Engine :=
  { keyed := true
    pins :=
      { k1 := r1.pins.setWidth 25
        k2 := r2.pins.setWidth 25
        k3 := r3.pins.setWidth 23
        k4 := r4.pins.setWidth 23
        k5 := r5.pins.setWidth 24
        k6 := r6.pins.setWidth 24 }
    pos :=
      { p1 := posValue r1.pos
        p2 := posValue r2.pos
        p3 := posValue r3.pos
        p4 := posValue r4.pos
        p5 := posValue r5.pos
        p6 := posValue r6.pos } }

/-- The engine a LOADKEY leaves, if there are exactly six records and each is legal for its wheel (R100). -/
def keyOf (recs : List KeyRecord) : Option Engine :=
  match recs with
  | [r1, r2, r3, r4, r5, r6] =>
    if recordLegal .w1 r1 && recordLegal .w2 r2 && recordLegal .w3 r3
        && recordLegal .w4 r4 && recordLegal .w5 r5 && recordLegal .w6 r6 then
      some (keyedEngine r1 r2 r3 r4 r5 r6)
    else none
  | _ => none

/-- LOADKEY: InvalidArgument for a wrong count, length or position, with nothing written; else all six pin registers and all
six positions are written and `keyed` is set, in one transition (R100), in every state of the engine (R101). -/
def execLoadkey (recs : List KeyRecord) (s : State) : Host.Outcome State Fault Refusal :=
  .next
    (match keyOf recs with
    | some e => (s.withEngine e).respondOk .engine []
    | none => s.raise .engine .invalidArgument)

/-- The six positions of a REPOS, if there are exactly six and each is in range for its wheel (R108). -/
def positionsOf (ps : List Byte) : Option Positions :=
  match ps with
  | [b1, b2, b3, b4, b5, b6] =>
    if posLegal WheelIx.w1.size b1 && posLegal WheelIx.w2.size b2 && posLegal WheelIx.w3.size b3
        && posLegal WheelIx.w4.size b4 && posLegal WheelIx.w5.size b5 && posLegal WheelIx.w6.size b6 then
      some ⟨posValue b1, posValue b2, posValue b3, posValue b4, posValue b5, posValue b6⟩
    else none
  | _ => none

/-- REPOS: NotKeyed while `keyed = 0`; InvalidArgument for a wrong count or a position out of range, nothing written; else
the six positions are written and the pins are untouched (R108). -/
def execRepos (ps : List Byte) (s : State) : Host.Outcome State Fault Refusal :=
  .next (s.whenKeyed
    (match positionsOf ps with
    | some pos => (s.withEngine { s.engine with pos := pos }).respondOk .engine []
    | none => s.raise .engine .invalidArgument))

/-- `Message`, shared by ENC and DEC: every character is validated before the first CHAR; a bad one anywhere refuses the
whole message with no stepping; else the count and the output characters are answered (R104). -/
def message (cs : List Byte) (s : State) : State :=
  if cs.all isLetterCode then
    let r := s.engine.process (cs.map letterOf)
    (s.withEngine r.2).respondOk .engine (octetsOfCount cs.length ++ r.1.map codeOf)
  else s.raise .engine .invalidCharacter

/-- ENC (R103). -/
def execEnc (cs : List Byte) (s : State) : Host.Outcome State Fault Refusal := .next (s.whenKeyed (message cs s))

/-- DEC: the same procedure and the same transform as ENC (R106). -/
def execDec (cs : List Byte) (s : State) : Host.Outcome State Fault Refusal := .next (s.whenKeyed (message cs s))

end Sys2Proof.Machine
end

