-- ==== Sys2Proof/Machine/WheelCommands.lean ====
section
/-! DEFINITION. The commands of the wheel port: W.LOAD, W.PEEK, W.STEP (40_wheel.md). -/

namespace Sys2Proof.Machine

/-- W.LOAD: InvalidArgument for `len = 0`, `len > 32` or a position out of range, with nothing written; else the whole wheel
is replaced and `w.loaded` set (R91). -/
def execWLoad (len pos : Byte) (pins : BitVec 32) (s : State) : Host.Outcome State Fault Refusal :=
  if len.toNat = 0 ∨ Config.wheelCap < len.toNat then .next (s.raise .wheel .invalidArgument)
  else if posLegal len.toNat pos then
    .next ((s.withWheel
      { loaded := true
        size := len.setWidth 6
        pins := pinsBelow len.toNat pins
        pos := posValue pos }).respondOk .wheel [])
  else .next (s.raise .wheel .invalidArgument)

/-- The payload octet of a pin: 0x01 active, 0x00 inactive (R74). -/
def pinOctet (b : Bool) : Byte := if b then 0x01 else 0x00

/-- W.PEEK: the pin at `(w.pos + off) mod w.size`; writes no register (R92). -/
def execWPeek (off : Byte) (s : State) : Host.Outcome State Fault Refusal :=
  .next (s.whenLoaded (s.respondOk .wheel [pinOctet (s.wheel.peek (sext8 off))]))

/-- W.STEP: `w.pos <- (w.pos + 1) mod w.size` (R93). -/
def execWStep (s : State) : Host.Outcome State Fault Refusal :=
  .next (s.whenLoaded ((s.withWheel s.wheel.step).respondOk .wheel []))

end Sys2Proof.Machine
end

