-- ==== Sys2Proof/Machine/Dispatch.lean ====
section
/-! DEFINITION. One arm per instruction: each calls its own meaning. -/

namespace Sys2Proof.Machine

def exec (i : Instr) (s : State) : Host.Outcome State Fault Refusal :=
  match i with
  | .loadkey recs => Sys2Proof.Machine.execLoadkey recs s
  | .repos ps => Sys2Proof.Machine.execRepos ps s
  | .enc cs => Sys2Proof.Machine.execEnc cs s
  | .dec cs => Sys2Proof.Machine.execDec cs s
  | .wLoad len pos pins => Sys2Proof.Machine.execWLoad len pos pins s
  | .wPeek off => Sys2Proof.Machine.execWPeek off s
  | .wStep => Sys2Proof.Machine.execWStep s
  | .char c => Sys2Proof.Machine.execChar c s
  | .stepall => Sys2Proof.Machine.execStepall s
  | .prestep => Sys2Proof.Machine.execPrestep s
  | .poststep => Sys2Proof.Machine.execPoststep s
  | .prn => Sys2Proof.Machine.execPrn s
  | .sub c digit => Sys2Proof.Machine.execSub c digit s

end Sys2Proof.Machine
end

