-- ==== Sys2Proof/Machine/Step.lean ====
section
/-! DEFINITION. One step: the next input is taken and answered in one atomic transition (R9, R50). -/

namespace Sys2Proof.Machine

/-- One step of the machine. With no input it does nothing; a reset input resets its unit; a frame that is no command of its
port answers BadCommand (R164); a command is executed. -/
def step (s : State) : Host.Outcome State Fault Refusal :=
  match s.takeInput with
  | none => .next s.idle
  | some (.reset u, s') => .next (s'.resetUnit u)
  | some (.frame p octets, s') =>
    match decode p octets with
    | .ok i => exec i s'
    | .error _ => .next (s'.raise p .badCommand)

/-- The state with the instruction of an opcode-table word delivered next, on the port of its opcode: the only place the
machine takes an instruction from (log entries 3 and 10). -/
def State.withFetchWord (s : State) (nbits w : Nat) : State :=
  s.deliver (tableFrame nbits w).1 (tableFrame nbits w).2

end Sys2Proof.Machine
end

