-- ==== Sys2Proof/Machine/Pseudo.lean ====
section
/-! DEFINITION. The pseudo-instructions CRYPT, ENCAT and DECAT: what their expansions into commands do (30_encoding.md R77). -/

namespace Sys2Proof.Machine

/-- The pseudo-instructions, with the octets of their expansions (R77). -/
inductive Pseudo
  | crypt (cs : List Byte)
  | encat (ps cs : List Byte)
  | decat (ps cs : List Byte)
  deriving DecidableEq, Repr

/-- Issues a second command only if the first one, of the engine port, answered OK and nothing else (R77). -/
def ifAnsweredOk (first : Host.Outcome State Fault Refusal) (second : State → Host.Outcome State Fault Refusal) :
    Host.Outcome State Fault Refusal :=
  match first with
  | .next t => if t.response = some ⟨.engine, [statusOk]⟩ then second t else .next t
  | .fault r => .fault r
  | .refused r => .refused r

/-- The expansions: CRYPT is ENC; ENCAT and DECAT are REPOS, then ENC or DEC if the REPOS answered OK (R77). -/
def execPseudo (p : Pseudo) (s : State) : Host.Outcome State Fault Refusal :=
  match p with
  | .crypt cs => execEnc cs s
  | .encat ps cs => ifAnsweredOk (execRepos ps s) (execEnc cs)
  | .decat ps cs => ifAnsweredOk (execRepos ps s) (execDec cs)

end Sys2Proof.Machine
end

