-- ==== Sys2Proof/Machine/Assembler.lean ====
section
/-! DEFINITION. The textual form of commands and pseudo-instructions: its reading and its assembly (30_encoding.md R76,
R77). -/

namespace Sys2Proof.Machine

/-- A wheel operand `<bits>@<pos>`: the pins, pin 0 first, and the position (R76). -/
structure AsmWheel where
  bits : List Bool
  pos : Int
  deriving DecidableEq, Repr

/-- One statement of the textual form (R76, R77). -/
inductive AsmLine
  | loadkey (ws : List AsmWheel)
  | repos (ps : List Int)
  | enc (letters : List Char)
  | dec (letters : List Char)
  | wLoad (w : AsmWheel)
  | wPeek (off : Int)
  | wStep
  | crypt (letters : List Char)
  | encat (ps : List Int) (letters : List Char)
  | decat (ps : List Int) (letters : List Char)
  deriving DecidableEq, Repr

/-- What a statement assembles to. -/
inductive Assembled
  | command (i : Instr)
  | pseudo (p : Pseudo)
  deriving DecidableEq, Repr

/-- The signed octet of a decimal operand; nothing outside -128..127, which no octet holds (R63, log entry 11). -/
def asmOctet (v : Int) : Option Byte := if -128 ≤ v ∧ v ≤ 127 then some (BitVec.ofInt 8 v) else none

/-- The signed octets of a list of decimal operands. -/
def asmOctets : List Int → Option (List Byte)
  | [] => some []
  | v :: vs =>
    match asmOctet v, asmOctets vs with
    | some b, some bs => some (b :: bs)
    | _, _ => none

/-- The character octets of a string, each character encoded as its code (R76); nothing for a code above one octet. -/
def asmLetters (letters : List Char) : Option (List Byte) :=
  if letters.all fun c => decide (c.toNat < 256) then some (letters.map fun c => BitVec.ofNat 8 c.toNat) else none

/-- The pins value of a pattern, pin j in bit j (R62); a pattern longer than 32 keeps its first 32 in the four octets. -/
def asmPins : List Bool → Nat
  | [] => 0
  | b :: bs => b.toNat + 2 * asmPins bs

/-- The wheel record of an operand: the length of the pattern is the `len` field (R76). -/
def asmRecord (w : AsmWheel) : Option KeyRecord :=
  if w.bits.length ≤ 255 then
    match asmOctet w.pos with
    | some p => some ⟨BitVec.ofNat 8 w.bits.length, p, BitVec.ofNat 32 (asmPins w.bits)⟩
    | none => none
  else none

/-- The wheel records of a list of operands. -/
def asmRecords : List AsmWheel → Option (List KeyRecord)
  | [] => some []
  | w :: ws =>
    match asmRecord w, asmRecords ws with
    | some r, some rs => some (r :: rs)
    | _, _ => none

/-- The assembly of a statement, before the check that its counts fit their fields. -/
def assembleRaw : AsmLine → Option Assembled
  | .loadkey ws => (asmRecords ws).map fun rs => .command (.loadkey rs)
  | .repos ps => (asmOctets ps).map fun bs => .command (.repos bs)
  | .enc l => (asmLetters l).map fun cs => .command (.enc cs)
  | .dec l => (asmLetters l).map fun cs => .command (.dec cs)
  | .wLoad w => (asmRecord w).map fun r => .command (.wLoad r.len r.pos r.pins)
  | .wPeek off => (asmOctet off).map fun b => .command (.wPeek b)
  | .wStep => some (.command .wStep)
  | .crypt l => (asmLetters l).map fun cs => .pseudo (.crypt cs)
  | .encat ps l =>
    match asmOctets ps, asmLetters l with
    | some bs, some cs => some (.pseudo (.encat bs cs))
    | _, _ => none
  | .decat ps l =>
    match asmOctets ps, asmLetters l with
    | some bs, some cs => some (.pseudo (.decat bs cs))
    | _, _ => none

/-- The commands a pseudo-instruction expands into, in order (R77). -/
def Pseudo.expand : Pseudo → List Instr
  | .crypt cs => [.enc cs]
  | .encat ps cs => [.repos ps, .enc cs]
  | .decat ps cs => [.repos ps, .dec cs]

/-- The commands a statement stands for. -/
def Assembled.instrs : Assembled → List Instr
  | .command i => [i]
  | .pseudo p => p.expand

/-- Assembles a statement; nothing when an operand or a count does not fit its field. -/
def assemble (l : AsmLine) : Option Assembled :=
  match assembleRaw l with
  | some a => if a.instrs.all Instr.wellFormed then some a else none
  | none => none

/-- White space between tokens; a statement may go on over several lines. DESIGN CHOICE (log entry 12, safe): blank, tab and
the two line-end characters are white space. -/
def asmSpace (c : Char) : Bool := c == ' ' || c == '\n' || c == '\t' || c == '\r'

/-- The text after any white space and comments, begun inside a comment or outside one. R76 says that `;` starts a comment and
no more. DESIGN CHOICE (log entry 12, safe): a comment ends with its line, at the line feed, and stands wherever white space may. -/
def asmSkipFrom : Bool → List Char → List Char
  | _, [] => []
  | true, c :: t => asmSkipFrom (c != '\n') t
  | false, c :: t => if asmSpace c then asmSkipFrom false t else if c == ';' then asmSkipFrom true t else c :: t

/-- The text after any white space and comments. -/
def asmSkip (t : List Char) : List Char := asmSkipFrom false t

/-- The value of decimal digits. -/
def asmDigits (ds : List Char) : Nat := ds.foldl (fun n c => 10 * n + (c.toNat - 48)) 0

/-- A decimal integer, possibly negative, and the text after it. -/
def readInt (t : List Char) : Option (Int × List Char) :=
  let negative := t.head? == some '-'
  let body := if negative then t.drop 1 else t
  let digits := body.takeWhile Char.isDigit
  if digits.isEmpty then none
  else
    let v : Int := asmDigits digits
    some (if negative then -v else v, body.dropWhile Char.isDigit)

/-- A string in double quotes and the text after it. R76 gives no escape. DESIGN CHOICE (log entry 13, safe): the string ends
at the first quote after the one that opens it, so no string holds a quote; every other character is taken as it stands. -/
def readString : List Char → Option (List Char × List Char)
  | '"' :: t =>
    match t.dropWhile (· != '"') with
    | _ :: rest => some (t.takeWhile (· != '"'), rest)
    | [] => none
  | _ => none

/-- A bit of a pattern. -/
def asmBit (c : Char) : Bool := c == '0' || c == '1'

/-- A wheel operand `<bits>@<pos>` and the text after it; the pattern may be empty. -/
def readWheel (t : List Char) : Option (AsmWheel × List Char) :=
  match t.dropWhile asmBit with
  | '@' :: rest => (readInt rest).map fun r => (⟨(t.takeWhile asmBit).map (· == '1'), r.1⟩, r.2)
  | _ => none

/-- Operands separated by commas and the text after them; the number bounds how many are read. -/
def readList {α : Type} (one : List Char → Option (α × List Char)) : Nat → List Char → Option (List α × List Char)
  | 0, _ => none
  | n + 1, t =>
    match one (asmSkip t) with
    | none => none
    | some (a, rest) =>
      match asmSkip rest with
      | ',' :: more => (readList one n more).map fun r => (a :: r.1, r.2)
      | other => some ([a], other)

/-- Positions, each followed by a comma, then a string, as ENCAT and DECAT have them (R77). The rule writes six positions.
DESIGN CHOICE (log entry 14, safe): any number of them is read, none among it, and the REPOS of the expansion refuses a number
other than six. -/
def readPositionsThenString : Nat → List Char → Option ((List Int × List Char) × List Char)
  | 0, _ => none
  | n + 1, t =>
    match readString (asmSkip t) with
    | some (l, rest) => some (([], l), rest)
    | none =>
      match readInt (asmSkip t) with
      | none => none
      | some (v, rest) =>
        match asmSkip rest with
        | ',' :: more => (readPositionsThenString n more).map fun r => ((v :: r.1.1, r.1.2), r.2)
        | _ => none

/-- Nothing but white space and comments may follow a statement. DESIGN CHOICE (log entry 12, safe): a text is one statement,
and one with anything after it is no statement. -/
def asmEnd {α : Type} : Option (α × List Char) → Option α
  | none => none
  | some (a, rest) =>
    match asmSkip rest with
    | [] => some a
    | _ :: _ => none

/-- The operands of LOADKEY and REPOS: any number of them, none among it (R76). -/
def readOperandList {α : Type} (one : List Char → Option (α × List Char)) (t : List Char) : Option (List α) :=
  match asmEnd (some ((), t)) with
  | some _ => some []
  | none => asmEnd (readList one (t.length + 1) t)

/-- Reads the operands of a mnemonic. -/
def readOperands (mnemonic t : List Char) : Option AsmLine :=
  let fuel := t.length + 1
  if mnemonic = ['L', 'O', 'A', 'D', 'K', 'E', 'Y'] then (readOperandList readWheel t).map .loadkey
  else if mnemonic = ['R', 'E', 'P', 'O', 'S'] then (readOperandList readInt t).map .repos
  else if mnemonic = ['E', 'N', 'C'] then (asmEnd (readString (asmSkip t))).map .enc
  else if mnemonic = ['D', 'E', 'C'] then (asmEnd (readString (asmSkip t))).map .dec
  else if mnemonic = ['W', '.', 'L', 'O', 'A', 'D'] then (asmEnd (readWheel (asmSkip t))).map .wLoad
  else if mnemonic = ['W', '.', 'P', 'E', 'E', 'K'] then (asmEnd (readInt (asmSkip t))).map .wPeek
  else if mnemonic = ['W', '.', 'S', 'T', 'E', 'P'] then (asmEnd (some ((), t))).map fun _ => .wStep
  else if mnemonic = ['C', 'R', 'Y', 'P', 'T'] then (asmEnd (readString (asmSkip t))).map .crypt
  else if mnemonic = ['E', 'N', 'C', 'A', 'T'] then
    (asmEnd (readPositionsThenString fuel t)).map fun r => .encat r.1 r.2
  else if mnemonic = ['D', 'E', 'C', 'A', 'T'] then
    (asmEnd (readPositionsThenString fuel t)).map fun r => .decat r.1 r.2
  else none

/-- Reads one statement from its characters: a mnemonic, then its operands (R76, R77). -/
def readLine (text : List Char) : Option AsmLine :=
  let t := asmSkip text
  let isName : Char → Bool := fun c => c.isAlpha || c == '.'
  readOperands (t.takeWhile isName) (t.dropWhile isName)

/-- The frames of the commands a statement's text stands for, in order. -/
def assembleText (text : List Char) : Option (List (List Byte)) :=
  match readLine text with
  | none => none
  | some l =>
    match assemble l with
    | none => none
    | some a => a.instrs.foldr (fun i acc => match encode i, acc with
        | some f, some fs => some (f :: fs)
        | _, _ => none) (some [])

end Sys2Proof.Machine
end

