-- ==== Sys2Proof/Safety.lean ====
section
/-! DEFINITION. The terms the statements use: the legal states, the frames that are commands, and the spec's own closed forms,
written from its rules beside the machine and not by calling its meanings. -/

namespace Sys2Proof.Safety

open Sys2Proof.Machine

/-! ### Legal states -/

/-- Every position is below its wheel's size (R22). -/
abbrev InRange (p : Positions) : Prop := ∀ i ∈ WheelIx.all, (p.get i).toNat < i.size

/-- The invariant of R22: whenever `keyed = 1`, `0 <= P[i] < N[i]` for every wheel. -/
abbrev EngineLegal (e : Engine) : Prop := e.keyed = true → InRange e.pos

/-- The legal values of the Wheel unit of R30: while loaded, a size 1..32, a position below it, and no bit beside the pins. -/
abbrev WheelLegal (w : WheelUnit) : Prop :=
  w.loaded = true →
    1 ≤ w.size.toNat ∧ w.size.toNat ≤ 32 ∧ w.pos.toNat < w.size.toNat
      ∧ w.pins.toNat < 2 ^ w.size.toNat

/-- Both units legal, and the sequencer idle, as it is whenever the state can be observed (R27). -/
abbrev Legal (s : State) : Prop := EngineLegal s.engine ∧ WheelLegal s.wheel ∧ s.micro = none

/-- Two states that differ at most in the registers that hold no value: the pins and positions of an engine without a key,
the size, pins and position of a Wheel unit that is not loaded (V1). -/
def AgreeWhereKeyed (s s' : State) : Prop :=
  s.engine.keyed = s'.engine.keyed ∧ (s.engine.keyed = true → s.engine = s'.engine)
    ∧ s.wheel.loaded = s'.wheel.loaded ∧ (s.wheel.loaded = true → s.wheel = s'.wheel)
    ∧ s.inputs = s'.inputs ∧ s.response = s'.response ∧ s.micro = s'.micro

/-! ### Frames -/

/-- The opcodes of each port (R71). -/
def portOpcodes : Port → List Byte
  | .engine => [0x01, 0x02, 0x10, 0x11]
  | .wheel => [0x21, 0x22, 0x23]

/-- A frame is a command of a port: its opcode is in the port's list and its length is the one its format gives (R70, R72). A
frame too short to hold its count field is shorter than any length its format gives. -/
def isCommandFrame (p : Port) (octets : List Byte) : Bool :=
  match octets with
  | [] => false
  | op :: rest =>
    (portOpcodes p).contains op
      && decide (formatLength op (rest.getD 0 0) (rest.getD 1 0) = some octets.length)

/-- Octet k of a frame. -/
def octet (octets : List Byte) (k : Nat) : Byte := octets.getD k 0

/-- A command other than LOADKEY and W.LOAD (R163). -/
def needsKey (octets : List Byte) : Bool := !(octet octets 0 == 0x01 || octet octets 0 == 0x21)

/-- The unit of a port holds a key: `keyed`, or `w.loaded` (R30, R163). -/
def holdsKey (s : State) : Port → Bool
  | .engine => s.engine.keyed
  | .wheel => s.wheel.loaded

/-- The record number of wheel i: record r describes wheel r+1 (R66). -/
def recordNo : WheelIx → Nat
  | .w1 => 0
  | .w2 => 1
  | .w3 => 2
  | .w4 => 3
  | .w5 => 4
  | .w6 => 5

/-- The arguments of a command frame are legal, read octet by octet; a position octet is read as unsigned, which refuses the
same frames as the signed reading (R63, R161, R162). -/
def argumentsLegal (octets : List Byte) : Bool :=
  let o := octet octets
  let op := o 0
  if op = 0x01 then
    decide ((o 1).toNat = 6) && WheelIx.all.all fun i =>
      decide ((o (2 + 6 * recordNo i)).toNat = i.size) && decide ((o (3 + 6 * recordNo i)).toNat < i.size)
  else if op = 0x02 then
    decide ((o 1).toNat = 6) && WheelIx.all.all fun i => decide ((o (2 + recordNo i)).toNat < i.size)
  else if op = 0x10 ∨ op = 0x11 then
    (octets.drop 3).all fun c => decide (0x41 ≤ c.toNat) && decide (c.toNat ≤ 0x5A)
  else if op = 0x21 then
    decide (1 ≤ (o 1).toNat) && decide ((o 1).toNat ≤ 32) && decide ((o 2).toNat < (o 1).toNat)
  else true

/-- The status the tests give a frame, in the order of R167: the frame, the key, the command's own validation. -/
def expectedStatus (s : State) (p : Port) (octets : List Byte) : Byte :=
  if isCommandFrame p octets = false then 0x04
  else if needsKey octets = true ∧ holdsKey s p = false then 0x03
  else if argumentsLegal octets = true then 0x00
  else if octet octets 0 = 0x10 ∨ octet octets 0 = 0x11 then 0x02
  else 0x01

/-- The payload a command's OK response carries (R74). -/
def payloadFits (octets payload : List Byte) : Prop :=
  let op := octet octets 0
  if op = 0x10 ∨ op = 0x11 then
    ∃ os, payload = octet octets 1 :: octet octets 2 :: os
      ∧ os.length = countOfOctets (octet octets 1) (octet octets 2)
      ∧ ∀ o ∈ os, 0x41 ≤ o.toNat ∧ o.toNat ≤ 0x5A
  else if op = 0x22 then payload = [0x00] ∨ payload = [0x01]
  else payload = []

/-- A message of letters only (R64, R162). -/
abbrev LettersOnly (cs : List Byte) : Prop := ∀ c ∈ cs, 0x41 ≤ c.toNat ∧ c.toNat ≤ 0x5A

/-- The six records of a LOADKEY are legal (R100); `pos` is read as `sext_8`. -/
def KeyLegal (recs : List KeyRecord) : Prop :=
  recs.length = 6 ∧ ∀ (i : WheelIx) (r : KeyRecord), recs[recordNo i]? = some r →
    r.len.toNat = i.size ∧ 0 ≤ r.pos.toInt ∧ r.pos.toInt < (i.size : Int)

/-- The six positions of a REPOS are legal (R108). -/
def PositionsLegal (ps : List Byte) : Prop :=
  ps.length = 6 ∧ ∀ (i : WheelIx) (b : Byte), ps[recordNo i]? = some b →
    0 ≤ b.toInt ∧ b.toInt < (i.size : Int)

/-! ### The spec's closed forms -/

/-- Pin `(p[i] + off) mod N[i]` of wheel i, with the never-negative modulo (R12, R41). -/
def pinAt (k : PinRegs) (p : Positions) (i : WheelIx) (off : Int) : Bool :=
  k.pin i ((((p.get i).toNat : Int) + off) % (i.size : Int)).toNat

/-- `e_i`: 1 if wheel i has a left neighbour whose pin at -5 is active, else 0 (R133). -/
def extra (k : PinRegs) (p : Positions) : WheelIx → Nat
  | .w1 => 0
  | .w2 => (pinAt k p .w1 (-5)).toNat
  | .w3 => (pinAt k p .w2 (-5)).toNat
  | .w4 => (pinAt k p .w3 (-5)).toNat
  | .w5 => (pinAt k p .w4 (-5)).toNat
  | .w6 => (pinAt k p .w5 (-5)).toNat

/-- `S(p)[i] = (p[i] + 1 + e_i) mod N[i]` (R133). -/
def passPos (k : PinRegs) (p : Positions) (i : WheelIx) : BitVec 5 :=
  BitVec.ofNat 5 (((p.get i).toNat + 1 + extra k p i) % i.size)

/-- `S`, the stepping pass as a function of the old positions (R133). -/
def passS (k : PinRegs) (p : Positions) : Positions :=
  ⟨passPos k p .w1, passPos k p .w2, passPos k p .w3, passPos k p .w4, passPos k p .w5, passPos k p .w6⟩

/-- `p'`, the positions PRN reads inside a CHAR begun at `p` (R122). -/
def atPrn (k : PinRegs) (p : Positions) : Positions := if pinAt k p .w6 (-5) then passS k p else p

/-- `T(p)`, the positions after one CHAR begun at `p` (R122, R126). -/
def charT (k : PinRegs) (p : Positions) : Positions := passS k (atPrn k p)

/-- `T` applied n times: the positions after n characters (R126). -/
def charTn (k : PinRegs) (p : Positions) : Nat → Positions
  | 0 => p
  | n + 1 => charT k (charTn k p n)

/-- How often a pass begun at `p` steps wheel i: its normal step, and the extra step if its left neighbour's pin at -5 is
active (R130). -/
def passSteps (k : PinRegs) (p : Positions) (i : WheelIx) : Nat := 1 + extra k p i

/-- How often one CHAR begun at `p` steps wheel i: in the pre-step's pass, if wheel 6's pin at -5 lets it run, and in the
post-step's pass, which begins at the positions PRN read (R120, R131, R132). -/
def charSteps (k : PinRegs) (p : Positions) (i : WheelIx) : Nat :=
  (if pinAt k p .w6 (-5) then passSteps k p i else 0) + passSteps k (atPrn k p) i

/-- How often a message of n letters begun at `p` steps wheel i (R32). -/
def messageSteps (k : PinRegs) (p : Positions) (i : WheelIx) : Nat → Nat
  | 0 => 0
  | n + 1 => messageSteps k p i n + charSteps k (charTn k p n) i

/-- `bit_i` of PRN at positions `p`: wheel i's pin at +8, inverted by wheel 6's (R140). -/
def keyBit (k : PinRegs) (p : Positions) (i : WheelIx) : Nat :=
  if pinAt k p .w6 8 = pinAt k p i 8 then 0 else 1

/-- The weighted sum of PRN at positions `p` (R140). -/
def digitOf (k : PinRegs) (p : Positions) : Nat :=
  1 * keyBit k p .w1 + 2 * keyBit k p .w2 + 4 * keyBit k p .w3 + 8 * keyBit k p .w4 + 10 * keyBit k p .w5

/-- The pins at +8 of wheels 1 to 5, as a combination of five bits. -/
def fivePins (b : Bool × Bool × Bool × Bool × Bool) : WheelIx → Bool
  | .w1 => b.1
  | .w2 => b.2.1
  | .w3 => b.2.2.1
  | .w4 => b.2.2.2.1
  | .w5 => b.2.2.2.2
  | .w6 => false

/-- `D(p)`, the digit PRN gives inside a CHAR begun at `p` (R126). -/
def charD (k : PinRegs) (p : Positions) : Nat := digitOf k (atPrn k p)

/-- The inner ring, as the source writes it (R7). -/
def innerRing : List Char := "PAKRHFIDZQNXMTBWJVGSOCLYUE".toList

/-- The outer ring, as the source writes it (R7). -/
def outerRing : List Char := "FHRKAPEUYLCOSGVJWBTMXNQZDI".toList

/-- `chr`: the letter of a letter index (R15). -/
def letterChar (c : Letter) : Char := Char.ofNat (0x41 + c.val)

/-- The table of R154: an odd digit and the two letters it leaves as they are. -/
def fixedLetters : List (Nat × Char × Char) :=
  [(1, 'K', 'W'), (3, 'A', 'B'), (5, 'P', 'T'), (7, 'E', 'M'), (9, 'U', 'X'), (11, 'N', 'Y'), (13, 'L', 'Q'),
    (15, 'C', 'Z'), (17, 'D', 'O'), (19, 'I', 'S'), (21, 'F', 'G'), (23, 'H', 'V'), (25, 'J', 'R')]

/-- The output character SUB and R104 give for the character octet `c` under a digit. -/
def substCode (c : Byte) (digit : Nat) : Byte :=
  BitVec.ofNat 8 (0x41 + (subst (Fin.ofNat 26 (c.toNat - 0x41)) digit).val)

/-- The OK response to a message of n letters with the given output characters (R74). -/
def okMessage (n : Nat) (os : List Byte) : Option Response :=
  some ⟨.engine, 0x00 :: BitVec.ofNat 8 (n % 256) :: BitVec.ofNat 8 (n / 256) :: os⟩

/-! ### What a run shows -/

/-- What can be seen of the machine after a step: the response and the status outputs (R28, R176, R200). -/
structure Observation where
  response : Option Response
  keyed : Bool
  positions : List (Option (BitVec 5))
  deriving DecidableEq, Repr

/-- The observation of a state. -/
def observe (s : State) : Observation := ⟨s.response, s.keyedOut, WheelIx.all.map s.posOut⟩

/-- The observations of a run, one for each input still to be delivered (R200). -/
def observations : List Input → State → List Observation
  | [], _ => []
  | x :: xs, s =>
    match step (s.withInputs [x]) with
    | .next t => observe t :: observations xs t
    | .fault _ => []
    | .refused _ => []

end Sys2Proof.Safety
end

