-- ==== Sys2Proof/Certificates/Slice0/Obligations.lean ====
section
/-! DEFINITION. The statements for the provers, each with the rule it formalises. -/

open Sys2Proof Sys2Proof.Machine Sys2Proof.Safety

/-! ### Reset, invariants, termination -/

/-- R33 and R190: after reset `keyed = 0` and `w.loaded = 0`, the sequencer is idle, no command is outstanding and no response
is pending. That the position outputs then give nothing is the model's choice and no rule's (log entry 8, after V2 of
93_implementation_defined.md): R28 and R33 only call them unspecified. The register contents, unspecified too, are not
stated. -/
def Obligations.ResetLeavesBothUnitsWithoutKey : Prop :=
  State.reset.engine.keyed = false ∧ State.reset.wheel.loaded = false ∧ State.reset.micro = none
    ∧ State.reset.inputs = [] ∧ State.reset.response = none ∧ ∀ i, State.reset.posOut i = none

/-- The state after reset is legal. -/
def Obligations.ResetIsLegal : Prop := Legal State.reset

/-- R22 and R30: every step from a legal state leads to a legal state: positions below the wheel sizes while keyed, the
loaded Wheel unit within its legal values; and the sequencer is idle after every command (R27). -/
def Obligations.EveryStepKeepsTheStateLegal : Prop :=
  ∀ s t : State, Legal s → step s = .next t → Legal t

/-- R74: every frame is answered, on the port it came on, by one response: a status octet 0x00 with the payload of its
command, or one of the four fault codes alone; and the frame is used up. No state stops the machine (R199). -/
def Obligations.EveryFrameIsAnsweredWithItsStatusAndPayload : Prop :=
  ∀ (s : State) (p : Port) (octets : List Byte) (rest : List Input), s.inputs = .frame p octets :: rest →
    ∃ t, step s = .next t ∧ t.inputs = rest ∧
      ((∃ payload, t.response = some ⟨p, 0x00 :: payload⟩ ∧ payloadFits octets payload)
        ∨ ∃ f : Byte, f ∈ [0x01, 0x02, 0x03, 0x04] ∧ t.response = some ⟨p, [f]⟩)

/-- R190 and R33: the reset input of the engine leaves it without a key and its sequencer idle, that of the Wheel unit leaves
it not loaded, no response is pending, and the other unit and what is still to be delivered are as before. The model's
choices: reset comes between commands (log entry 9); the sequencer's value is the field `micro`, which belongs to the engine
(log entry 5); and the position outputs, which R28 calls unspecified without a key, give nothing (log entry 8, after V2 of
93_implementation_defined.md). -/
def Obligations.ResetInputClearsItsUnitOnly : Prop :=
  ∀ (s : State) (u : Port) (rest : List Input), s.inputs = .reset u :: rest →
    ∃ t, step s = .next t ∧ t.inputs = rest ∧ t.response = none ∧ holdsKey t u = false
      ∧ (u = .engine → t.wheel = s.wheel ∧ t.micro = none ∧ ∀ i, t.posOut i = none)
      ∧ (u = .wheel → t.engine = s.engine ∧ t.micro = s.micro)

/-- With nothing to deliver a step changes no register and gives no response: the block does nothing between commands. -/
def Obligations.NothingHappensBetweenCommands : Prop :=
  ∀ s : State, s.inputs = [] →
    ∃ t, step s = .next t ∧ t.engine = s.engine ∧ t.wheel = s.wheel ∧ t.micro = s.micro ∧ t.inputs = []
      ∧ t.response = none

/-! ### Decoding and encoding -/

/-- When the next frame decodes to an instruction on its port, the step is that instruction's execution at the state from
which the frame has been taken. -/
def Obligations.AStepRunsTheDecodedCommand : Prop :=
  ∀ (s : State) (p : Port) (octets : List Byte) (rest : List Input) (i : Instr),
    s.inputs = .frame p octets :: rest → decode p octets = .ok i → i.wellFormed = true →
      step s = exec i { s with inputs := rest }

/-- R70 to R72: a port decodes exactly the frames whose opcode is in its list and whose length is the one their format
gives. -/
def Obligations.APortDecodesExactlyItsCommandFrames : Prop :=
  ∀ (p : Port) (octets : List Byte), (∃ i, decode p octets = .ok i) ↔ isCommandFrame p octets = true

/-- R164: a frame that is not a command of the port it arrives on (empty, opcode not in the port's list, or not of the
length its format gives) answers BadCommand and changes no register. -/
def Obligations.AFrameThatIsNoCommandAnswersBadCommand : Prop :=
  ∀ (s : State) (p : Port) (octets : List Byte) (rest : List Input),
    s.inputs = .frame p octets :: rest → isCommandFrame p octets = false →
      step s = .next { s with inputs := rest, response := some ⟨p, [0x04]⟩ }

/-- Decoding the frame of a well-formed command gives the command back, with every operand. -/
def Obligations.DecodeOfEncodeIsTheCommand : Prop :=
  ∀ (i : Instr) (p : Port) (octets : List Byte),
    i.wellFormed = true → i.port = some p → encode i = some octets → decode p octets = .ok i

/-- A frame a port decodes is the encoding of what it decodes to, which is a well-formed command of that port: no octet of a
frame is dropped, and no two frames of a port are the same command. -/
def Obligations.EncodeOfDecodeIsTheFrame : Prop :=
  ∀ (i : Instr) (p : Port) (octets : List Byte),
    decode p octets = .ok i → encode i = some octets ∧ i.port = some p ∧ i.wellFormed = true

/-- R78: the worked texts assemble to the worked octets. -/
def Obligations.TheWorkedTextsAssembleToTheWorkedOctets : Prop :=
  assembleText "REPOS 0, 1, 2, 3, 0, 0".toList = some [[0x02, 0x06, 0x00, 0x01, 0x02, 0x03, 0x00, 0x00]]
  ∧ assembleText "REPOS 0, 1, 2, 3, 0, -1".toList = some [[0x02, 0x06, 0x00, 0x01, 0x02, 0x03, 0x00, 0xFF]]
  ∧ (∀ s : State, exec (.repos [0x00, 0x01, 0x02, 0x03, 0x00, 0xFF]) { s with engine := { s.engine with keyed := true } }
      = .next { s with
          engine := { s.engine with keyed := true }
          response := some ⟨.engine, [0x01]⟩ })
  ∧ assembleText "ENC \"SCHLUESSEL\"".toList
      = some [[0x10, 0x0A, 0x00, 0x53, 0x43, 0x48, 0x4C, 0x55, 0x45, 0x53, 0x53, 0x45, 0x4C]]
  ∧ assembleText "ENC \"\"".toList = some [[0x10, 0x00, 0x00]]
  ∧ assembleText "DEC \"AB\"".toList = some [[0x11, 0x02, 0x00, 0x41, 0x42]]
  ∧ ("1011000001101100000110110".toList.map fun c => c == '1')
      = (List.range 25).map (fun j => (0x00D8360D : BitVec 32).getLsbD j)
  ∧ octetsOfPins 0x00D8360D = [0x0D, 0x36, 0xD8, 0x00]
  ∧ assembleText ("LOADKEY 1011000001101100000110110@0, 1110100010111010001011101@1, ".toList
        ++ "01001000100100100010010@2, 00000111000000011100000@3, ".toList
        ++ "000101110100010111010001@0, 101100000110110000011011@0".toList)
      = some [[0x01, 0x06, 0x19, 0x00, 0x0D, 0x36, 0xD8, 0x00, 0x19, 0x01, 0x17, 0x5D, 0x74, 0x01,
          0x17, 0x02, 0x12, 0x49, 0x24, 0x00, 0x17, 0x03, 0xE0, 0x80, 0x03, 0x00,
          0x18, 0x00, 0xE8, 0xA2, 0x8B, 0x00, 0x18, 0x00, 0x0D, 0x36, 0xD8, 0x00]]
  ∧ assembleText "W.PEEK -5".toList = some [[0x22, 0xFB]]
  ∧ assembleText "W.PEEK 8".toList = some [[0x22, 0x08]]
  ∧ assembleText "W.STEP".toList = some [[0x23]]

/-- The worked encodings of R78 (30_encoding.md), decoded. -/
def Obligations.TheWorkedEncodingsDecode : Prop :=
  decode .engine [0x02, 0x06, 0x00, 0x01, 0x02, 0x03, 0x00, 0x00] = .ok (.repos [0, 1, 2, 3, 0, 0])
  ∧ decode .engine [0x02, 0x06, 0x00, 0x01, 0x02, 0x03, 0x00, 0xFF] = .ok (.repos [0, 1, 2, 3, 0, -1])
  ∧ decode .engine [0x10, 0x0A, 0x00, 0x53, 0x43, 0x48, 0x4C, 0x55, 0x45, 0x53, 0x53, 0x45, 0x4C]
      = .ok (.enc [0x53, 0x43, 0x48, 0x4C, 0x55, 0x45, 0x53, 0x53, 0x45, 0x4C])
  ∧ decode .engine [0x10, 0x00, 0x00] = .ok (.enc [])
  ∧ decode .engine [0x11, 0x02, 0x00, 0x41, 0x42] = .ok (.dec [0x41, 0x42])
  ∧ decode .engine
      [0x01, 0x06, 0x19, 0x00, 0x0D, 0x36, 0xD8, 0x00, 0x19, 0x01, 0x17, 0x5D, 0x74, 0x01,
        0x17, 0x02, 0x12, 0x49, 0x24, 0x00, 0x17, 0x03, 0xE0, 0x80, 0x03, 0x00,
        0x18, 0x00, 0xE8, 0xA2, 0x8B, 0x00, 0x18, 0x00, 0x0D, 0x36, 0xD8, 0x00]
      = .ok (.loadkey [⟨25, 0, 0x00D8360D⟩, ⟨25, 1, 0x01745D17⟩, ⟨23, 2, 0x00244912⟩,
          ⟨23, 3, 0x000380E0⟩, ⟨24, 0, 0x008BA2E8⟩, ⟨24, 0, 0x00D8360D⟩])
  ∧ decode .wheel [0x22, 0xFB] = .ok (.wPeek (-5))
  ∧ decode .wheel [0x22, 0x08] = .ok (.wPeek 8)
  ∧ decode .wheel [0x23] = .ok .wStep

/-- R73: pin bits at and above `len` carry no pin: two LOADKEY commands, or two W.LOAD commands, that differ only in them
lead to the same state with the same response. -/
def Obligations.SparePinBitsAreIgnored : Prop :=
  (∀ (rs rs' : List KeyRecord) (s : State),
      rs.length = rs'.length →
      (∀ (k : Nat) (r r' : KeyRecord), rs[k]? = some r → rs'[k]? = some r' →
        r.len = r'.len ∧ r.pos = r'.pos ∧ ∀ j, j < r.len.toNat → r.pins.getLsbD j = r'.pins.getLsbD j) →
      exec (.loadkey rs) s = exec (.loadkey rs') s)
  ∧ ∀ (len pos : Byte) (v v' : BitVec 32) (s : State),
      (∀ j, j < len.toNat → v.getLsbD j = v'.getLsbD j) →
      exec (.wLoad len pos v) s = exec (.wLoad len pos v') s

/-! ### The Wheel unit -/

/-- R91, W.LOAD (opcode 0x21): with `1 <= len <= 32` and `0 <= pos < len` the whole wheel is replaced and loaded and the
answer is OK; otherwise the answer is InvalidArgument and nothing is written. -/
def Obligations.WLoadReplacesTheWholeWheelOrNothing : Prop :=
  ∀ (len pos : Byte) (v : BitVec 32) (s : State),
    (encode (.wLoad len pos v)).map (List.take 1) = some [0x21]
    ∧ (1 ≤ len.toNat ∧ len.toNat ≤ 32 ∧ 0 ≤ pos.toInt ∧ pos.toInt < (len.toNat : Int) →
        ∃ w : WheelUnit,
          exec (.wLoad len pos v) s = .next { s with wheel := w, response := some ⟨.wheel, [0x00]⟩ }
          ∧ w.loaded = true ∧ w.size.toNat = len.toNat ∧ (w.pos.toNat : Int) = pos.toInt
          ∧ ∀ j, w.pins.getLsbD j = (decide (j < len.toNat) && v.getLsbD j))
    ∧ (¬(1 ≤ len.toNat ∧ len.toNat ≤ 32 ∧ 0 ≤ pos.toInt ∧ pos.toInt < (len.toNat : Int)) →
        exec (.wLoad len pos v) s = .next { s with response := some ⟨.wheel, [0x01]⟩ })

/-- R92, W.PEEK (opcode 0x22): a loaded unit answers the pin at `(w.pos + off) mod w.size`, with the signed offset and the
never-negative modulo, and writes nothing; a unit not loaded answers NotKeyed. -/
def Obligations.WPeekAnswersThePinAtTheSignedOffset : Prop :=
  ∀ (off : Byte) (s : State),
    encode (.wPeek off) = some [0x22, off]
    ∧ (s.wheel.loaded = true →
        exec (.wPeek off) s = .next { s with
          response := some ⟨.wheel, [0x00,
            if s.wheel.pins.getLsbD (((s.wheel.pos.toNat : Int) + off.toInt) % (s.wheel.size.toNat : Int)).toNat
            then 0x01 else 0x00]⟩ })
    ∧ (s.wheel.loaded = false → exec (.wPeek off) s = .next { s with response := some ⟨.wheel, [0x03]⟩ })

/-- R93, W.STEP (opcode 0x23): on a loaded unit `w.pos <- (w.pos + 1) mod w.size` and nothing else is written; a unit not
loaded answers NotKeyed. -/
def Obligations.WStepMovesTheWheelOnePlace : Prop :=
  ∀ s : State, WheelLegal s.wheel →
    encode .wStep = some [0x23]
    ∧ (s.wheel.loaded = true →
        ∃ p : BitVec 5, p.toNat = (s.wheel.pos.toNat + 1) % s.wheel.size.toNat
          ∧ exec .wStep s = .next { s with
              wheel := { s.wheel with pos := p }, response := some ⟨.wheel, [0x00]⟩ })
    ∧ (s.wheel.loaded = false → exec .wStep s = .next { s with response := some ⟨.wheel, [0x03]⟩ })

/-- R94: for a loaded wheel of size N, `peek'(off) = peek(off + 1)` after one step, `peek(off + N) = peek(off)`, N steps
restore the wheel, and k steps from p leave position `(p + k) mod N`. -/
def Obligations.TheLawsOfAWheel : Prop :=
  ∀ w : WheelUnit, w.loaded = true → WheelLegal w →
    (∀ off : Int, w.step.peek off = w.peek (off + 1))
    ∧ (∀ off : Int, w.peek (off + (w.size.toNat : Int)) = w.peek off)
    ∧ WheelUnit.step^[w.size.toNat] w = w
    ∧ ∀ k : Nat, (WheelUnit.step^[k] w).pos.toNat = (w.pos.toNat + k) % w.size.toNat

/-- R95: a wheel of size N at position 0, given N W.STEP commands one after another, is back as it was; before step k,
`peek(0)` is pin k, `peek(8)` is pin `(k + 8) mod N` and `peek(-5)` is pin `(k - 5) mod N`. -/
def Obligations.AWheelIsPeriodicUnderWStepCommands : Prop :=
  ∀ (s : State) (rest : List Input), s.wheel.loaded = true → WheelLegal s.wheel → s.wheel.pos = 0 →
    s.inputs = List.replicate s.wheel.size.toNat (.frame .wheel [0x23]) ++ rest →
      (∃ t : State, Host.Core.run Sys2Proof.core s.wheel.size.toNat s = .next t
        ∧ t.wheel = s.wheel ∧ t.inputs = rest)
      ∧ ∀ k, k < s.wheel.size.toNat →
        ∃ t : State, Host.Core.run Sys2Proof.core k s = .next t
          ∧ t.wheel.peek 0 = s.wheel.pins.getLsbD k
          ∧ t.wheel.peek 8 = s.wheel.pins.getLsbD ((k + 8) % s.wheel.size.toNat)
          ∧ t.wheel.peek (-5) = s.wheel.pins.getLsbD (((k : Int) - 5) % (s.wheel.size.toNat : Int)).toNat

/-! ### The engine commands -/

/-- R100 and R101, LOADKEY (opcode 0x01), in every state of the engine: a legal key (six records, lengths 25, 25, 23, 23, 24,
24, positions in range) is written whole, pins and positions, `keyed` is set and the answer is OK; any other answers
InvalidArgument and writes nothing, so an old key stays. -/
def Obligations.LoadkeyWritesTheWholeKeyOrNothing : Prop :=
  ∀ (recs : List KeyRecord) (s : State),
    (encode (.loadkey recs)).map (List.take 1) = some [0x01]
    ∧ (KeyLegal recs →
        ∃ e : Engine,
          exec (.loadkey recs) s = .next { s with engine := e, response := some ⟨.engine, [0x00]⟩ }
          ∧ e.keyed = true
          ∧ ∀ (i : WheelIx) (r : KeyRecord), recs[recordNo i]? = some r →
              ((e.pos.get i).toNat : Int) = r.pos.toInt
              ∧ ∀ j, j < i.size → e.pins.pin i j = r.pins.getLsbD j)
    ∧ (¬KeyLegal recs → exec (.loadkey recs) s = .next { s with response := some ⟨.engine, [0x01]⟩ })

/-- R108, REPOS (opcode 0x02): on a keyed engine six legal positions are written, all or nothing, and the pins are untouched;
a wrong count or a position out of range answers InvalidArgument and an engine without a key NotKeyed, nothing written. -/
def Obligations.ReposSetsAllSixPositionsOrNone : Prop :=
  ∀ (ps : List Byte) (s : State),
    (encode (.repos ps)).map (List.take 1) = some [0x02]
    ∧ (s.engine.keyed = true → PositionsLegal ps →
        ∃ pos : Positions,
          exec (.repos ps) s = .next { s with
            engine := { s.engine with pos := pos }, response := some ⟨.engine, [0x00]⟩ }
          ∧ ∀ (i : WheelIx) (b : Byte), ps[recordNo i]? = some b → ((pos.get i).toNat : Int) = b.toInt)
    ∧ (s.engine.keyed = true → ¬PositionsLegal ps →
        exec (.repos ps) s = .next { s with response := some ⟨.engine, [0x01]⟩ })
    ∧ (s.engine.keyed = false → exec (.repos ps) s = .next { s with response := some ⟨.engine, [0x03]⟩ })

/-- R126, with R103 and R106: on a keyed engine ENC and DEC (opcodes 0x10 and 0x11) answer to a message of letters
`c_0 .. c_(n-1)` begun at `p_0` the count and the letters `o_k = SUB(c_k, D(p_k))`, where `p_(k+1) = T(p_k)`, and leave the
engine at `p_n` with pins and flag untouched. -/
def Obligations.EncAndDecEncipherWithTheKeystreamOfTheKey : Prop :=
  ∀ (cs : List Byte) (s : State) (i : Instr),
    i = .enc cs ∨ i = .dec cs → s.engine.keyed = true → LettersOnly cs →
      ∃ os : List Byte,
        exec i s = .next { s with
          engine := { s.engine with pos := charTn s.engine.pins s.engine.pos cs.length }
          response := okMessage cs.length os }
        ∧ os.length = cs.length
        ∧ ∀ (k : Nat) (c : Byte), cs[k]? = some c →
            os[k]? = some (substCode c (charD s.engine.pins (charTn s.engine.pins s.engine.pos k)))

/-- R106: DEC runs the same procedure as ENC: a frame with opcode 0x11 is answered, and leaves the machine, as the frame with
opcode 0x10 and the same octets after it. -/
def Obligations.ADecFrameActsAsTheEncFrame : Prop :=
  ∀ (s : State) (octets : List Byte) (rest : List Input),
    step { s with inputs := .frame .engine (0x11 :: octets) :: rest }
      = step { s with inputs := .frame .engine (0x10 :: octets) :: rest }

/-- R162: on a keyed engine a message with a character outside 0x41..0x5A anywhere answers InvalidCharacter, gives no output
and steps no wheel. -/
def Obligations.AMessageWithABadCharacterStepsNoWheel : Prop :=
  ∀ (cs : List Byte) (s : State) (i : Instr),
    i = .enc cs ∨ i = .dec cs → s.engine.keyed = true → ¬LettersOnly cs →
      exec i s = .next { s with response := some ⟨.engine, [0x02]⟩ }

/-- R105: two messages one after the other give the same letters, in the same order, and the same final state as the joined
message, but for the response itself; with ENC or DEC for each of the three. A bad character in the second does not stop the
first when it was sent first, and refuses the joined message whole. -/
def Obligations.ConsecutiveMessagesContinueTheKeystream : Prop :=
  ∀ (a b : List Byte) (s : State) (ia ib iab : Instr),
    ia = .enc a ∨ ia = .dec a → ib = .enc b ∨ ib = .dec b → iab = .enc (a ++ b) ∨ iab = .dec (a ++ b) →
    s.engine.keyed = true → LettersOnly a →
      ∃ (ta tb tab : State) (oa : List Byte),
        exec ia s = .next ta ∧ exec ib ta = .next tb ∧ exec iab s = .next tab
        ∧ ta.response = okMessage a.length oa ∧ oa.length = a.length
        ∧ (LettersOnly b →
            ∃ ob : List Byte, tb.response = okMessage b.length ob ∧ ob.length = b.length
              ∧ tab.response = okMessage (a.length + b.length) (oa ++ ob)
              ∧ tab = { tb with response := tab.response })
        ∧ (¬LettersOnly b →
            tb = { ta with response := some ⟨.engine, [0x02]⟩ }
            ∧ tab = { s with response := some ⟨.engine, [0x02]⟩ })

/-- R107: if ENC of M answers C, then DEC of C, on that engine or another with the same pins put back at the positions the
ENC began at, answers M and ends at the positions the ENC ended at. A DEC given right after the ENC, without repositioning,
does not in general answer M. -/
def Obligations.DecFromTheSamePositionsUndoesEnc : Prop :=
  (∀ (m : List Byte) (s u : State), s.engine.keyed = true → LettersOnly m →
    u.engine.keyed = true → u.engine.pins = s.engine.pins → u.engine.pos = s.engine.pos →
    ∃ (t t' : State) (c : List Byte),
      exec (.enc m) s = .next t ∧ t.response = okMessage m.length c ∧ c.length = m.length
      ∧ exec (.dec c) u = .next t' ∧ t'.response = okMessage m.length m ∧ t'.engine = t.engine)
  ∧ ∃ (m c : List Byte) (s t t' : State), s.engine.keyed = true ∧ InRange s.engine.pos ∧ LettersOnly m
      ∧ exec (.enc m) s = .next t ∧ t.response = okMessage m.length c
      ∧ exec (.dec c) t = .next t' ∧ t'.response ≠ okMessage m.length m

/-- Write sets (10_state.md section 8): ENC and DEC of n letters step each wheel at least n and at most 4n times, wheel 1 at
most 2n times, and each position ends that many places further on. The steps are counted pass by pass along the message: in
each character one for the post-step, one more if the pre-step fires, and one more in each pass in which the left
neighbour's pin at -5 is active. -/
def Obligations.AMessageOfNLettersStepsEachWheelNToFourNTimes : Prop :=
  ∀ (cs : List Byte) (s : State) (i : Instr),
    i = .enc cs ∨ i = .dec cs → s.engine.keyed = true → InRange s.engine.pos → LettersOnly cs →
      ∃ t : State, exec i s = .next t
        ∧ messageSteps s.engine.pins s.engine.pos .w1 cs.length ≤ 2 * cs.length
        ∧ ∀ w : WheelIx,
            cs.length ≤ messageSteps s.engine.pins s.engine.pos w cs.length
            ∧ messageSteps s.engine.pins s.engine.pos w cs.length ≤ 4 * cs.length
            ∧ (t.engine.pos.get w).toNat
                = ((s.engine.pos.get w).toNat + messageSteps s.engine.pins s.engine.pos w cs.length) % w.size

/-- R77: CRYPT is ENC; ENCAT and DECAT are REPOS and then ENC or DEC, which is issued only if the REPOS answered OK. -/
def Obligations.PseudoInstructionsAreTheirExpansions : Prop :=
  ∀ (ps cs : List Byte) (s : State),
    execPseudo (.crypt cs) s = exec (.enc cs) s
    ∧ ∃ t : State, exec (.repos ps) s = .next t
      ∧ (s.engine.keyed = true ∧ PositionsLegal ps →
          execPseudo (.encat ps cs) s = exec (.enc cs) t ∧ execPseudo (.decat ps cs) s = exec (.dec cs) t)
      ∧ (¬(s.engine.keyed = true ∧ PositionsLegal ps) →
          execPseudo (.encat ps cs) s = .next t ∧ execPseudo (.decat ps cs) s = .next t)

/-! ### The per-character transform -/

/-- R120 and R121: CHAR is PRESTEP, PRN, SUB with PRN's digit, POSTSTEP, in that order, and returns SUB's letter; it has no
encoding. -/
def Obligations.CharRunsItsFourStepsInOrder : Prop :=
  ∀ (c : Letter) (s : State),
    ∃ (s1 s2 s3 s4 : State) (digit : Nat) (o : Letter),
      encode (.char c) = none
      ∧ exec .prestep s = .next s1 ∧ exec .prn s1 = .next s2 ∧ s2.micro = some digit
      ∧ exec (.sub c digit) s2 = .next s3 ∧ s3.micro = some o.val
      ∧ exec .poststep s3 = .next s4 ∧ s4.micro = some o.val ∧ exec (.char c) s = .next s4

/-- R122: CHAR begun at `p` leaves the positions `S(p')`, with `p' = S(p)` if wheel 6's pin at -5 is active at `p` and
`p' = p` if not, and returns SUB of the digit at `p'`; so wheel 1 advances by 1 or 2 and every other wheel by 1 to 4. -/
def Obligations.CharStepsOnceOrTwiceFromTheOldPositions : Prop :=
  ∀ (c : Letter) (s : State),
    ∃ p' p'' : Positions,
      (pinAt s.engine.pins s.engine.pos .w6 (-5) = false → p' = s.engine.pos)
      ∧ (pinAt s.engine.pins s.engine.pos .w6 (-5) = true → p' = passS s.engine.pins s.engine.pos)
      ∧ p'' = passS s.engine.pins p'
      ∧ exec (.char c) s = .next { s with
          engine := { s.engine with pos := p'' }
          micro := some (subst c (digitOf s.engine.pins p')).val }
      ∧ ∃ m : WheelIx → Nat, m .w1 ≤ 2
          ∧ ∀ i, 1 ≤ m i ∧ m i ≤ 4
              ∧ (p''.get i).toNat = ((s.engine.pos.get i).toNat + m i) % i.size

/-- R123: the letters do not steer the machine. Two CHARs begun with the same pins and positions, whatever their letters, use
the same digit and end at the same positions; and two messages of the same length leave a keyed engine in the same state,
with the same digit `(idx_out(o_k) - idx_in(c_k)) mod 26` at each place k. -/
def Obligations.TheLettersDoNotSteerTheMachine : Prop :=
  (∀ (c d : Letter) (s s' : State), s.engine.pins = s'.engine.pins → s.engine.pos = s'.engine.pos →
    ∃ (t t' : State) (digit : Nat), exec (.char c) s = .next t ∧ exec (.char d) s' = .next t'
      ∧ t.micro = some (subst c digit).val ∧ t'.micro = some (subst d digit).val
      ∧ t.engine.pos = t'.engine.pos)
  ∧ ∀ (cs ds : List Byte) (s : State),
    s.engine.keyed = true → LettersOnly cs → LettersOnly ds → cs.length = ds.length →
      ∃ (t u : State) (os qs : List Byte),
        exec (.enc cs) s = .next t ∧ exec (.enc ds) s = .next u ∧ t.engine = u.engine
        ∧ t.response = okMessage cs.length os ∧ u.response = okMessage ds.length qs
        ∧ os.length = cs.length ∧ qs.length = ds.length
        ∧ ∀ (k : Nat) (c o d q : Byte),
            cs[k]? = some c → os[k]? = some o → ds[k]? = some d → qs[k]? = some q →
            ((idxOut (letterOf o) : Int) - (idxIn (letterOf c) : Int)) % 26
              = ((idxOut (letterOf q) : Int) - (idxIn (letterOf d) : Int)) % 26

/-- R133, with R130 and R132: after STEPALL, and after POSTSTEP, `P[i] = (p[i] + 1 + e_i) mod N[i]` for every wheel, where
`e_1 = 0` and `e_i` is the pin of wheel i-1 at -5 at the old positions; nothing else changes. -/
def Obligations.APassMovesEachWheelByItsLeftNeighboursPin : Prop :=
  ∀ (s : State) (i : Instr), i = .stepall ∨ i = .poststep →
    ∃ p : Positions,
      exec i s = .next { s with engine := { s.engine with pos := p } }
      ∧ ∀ w : WheelIx,
          (p.get w).toNat = ((s.engine.pos.get w).toNat + 1 + extra s.engine.pins s.engine.pos w) % w.size

/-- R131: PRESTEP, which has no encoding, runs a whole pass, that of STEPALL, if wheel 6's pin at -5 is active when it begins,
and moves no wheel if it is not. -/
def Obligations.PrestepRunsAPassOnlyIfWheelSixAllows : Prop :=
  ∀ s : State,
    encode .prestep = none
    ∧ (pinAt s.engine.pins s.engine.pos .w6 (-5) = true →
      exec .prestep s = .next { s with
        engine := { s.engine with pos := passS s.engine.pins s.engine.pos } } ∧ exec .prestep s = exec .stepall s)
    ∧ (pinAt s.engine.pins s.engine.pos .w6 (-5) = false → exec .prestep s = .next s)

/-- R135: with every pin 0 PRESTEP moves nothing, a pass moves every wheel by 1, and so does each character; with every pin 1
PRESTEP runs its pass, a pass moves wheel 1 by 1 and wheels 2 to 6 by 2, and each character moves wheel 1 by 2 and wheels 2
to 6 by 4. -/
def Obligations.ExtremeKeysMoveTheWheelsByOneOrByTwoAndFour : Prop :=
  ∀ (s : State) (c : Letter) (b : Bool),
    (∀ (i : WheelIx) (j : Nat), j < i.size → s.engine.pins.pin i j = b) →
      ∃ t u : State, exec .stepall s = .next t ∧ exec (.char c) s = .next u
        ∧ exec .prestep s = .next (if b then t else s)
        ∧ ∀ i : WheelIx,
            (t.engine.pos.get i).toNat
              = ((s.engine.pos.get i).toNat + (if b then (if i = .w1 then 1 else 2) else 1)) % i.size
            ∧ (u.engine.pos.get i).toNat
              = ((s.engine.pos.get i).toNat + (if b then (if i = .w1 then 2 else 4) else 1)) % i.size

/-- The direction of influence (43_stepping.md): in a pass wheel 1 moves by 1 whatever the key, and the movement of another
wheel depends on nothing but its left neighbour's pins and position: two engines alike in these and in the wheel's own
position leave the wheel at the same position. -/
def Obligations.InAPassAWheelIsMovedByItsLeftNeighbourOnly : Prop :=
  ∀ s s' : State,
    ∃ t t' : State, exec .stepall s = .next t ∧ exec .stepall s' = .next t'
      ∧ (t.engine.pos.get .w1).toNat = ((s.engine.pos.get .w1).toNat + 1) % 25
      ∧ ∀ i l : WheelIx, i.left = some l →
          s.engine.pos.get i = s'.engine.pos.get i → s.engine.pos.get l = s'.engine.pos.get l →
          (∀ j, j < l.size → s.engine.pins.pin l j = s'.engine.pins.pin l j) →
          t.engine.pos.get i = t'.engine.pos.get i

/-- R42: the effective indices of the two offsets the engine uses, for a position in range: `p - 5` or `p + N - 5`, and
`p + 8` or `p + 8 - N`. -/
def Obligations.PeeksAtMinusFiveAndPlusEightWrapAround : Prop :=
  ∀ (e : Engine) (i : WheelIx), (e.pos.get i).toNat < i.size →
    e.peek i (-5) = e.pins.pin i
      (if 5 ≤ (e.pos.get i).toNat then (e.pos.get i).toNat - 5 else (e.pos.get i).toNat + i.size - 5)
    ∧ e.peek i 8 = e.pins.pin i
      (if (e.pos.get i).toNat + 8 < i.size then (e.pos.get i).toNat + 8 else (e.pos.get i).toNat + 8 - i.size)

/-! ### Keystream digit and substitution -/

/-- R140: PRN returns `1*bit_1 + 2*bit_2 + 4*bit_3 + 8*bit_4 + 10*bit_5`, where `bit_i` says whether wheel i's pin at +8
differs from wheel 6's; it writes no register and has no encoding. -/
def Obligations.PrnIsTheWeightedSumOfThePinsThatDifferFromWheelSix : Prop :=
  ∀ s : State, encode .prn = none ∧ exec .prn s = .next { s with micro := some (digitOf s.engine.pins s.engine.pos) }

/-- R141: the digit PRN returns, the machine's weighted sum of the pins at +8, is always one of 0..25, and each of these is
returned in some state. Under either pin of wheel 6, each of 0..9 and 16..25 is the weighted sum of exactly one combination
of the pins of wheels 1 to 5, each of 10..15 of exactly two. -/
def Obligations.TheDigitIsZeroToTwentyFive : Prop :=
  (∀ s : State, ∃ v : Nat, v ≤ 25 ∧ exec .prn s = .next { s with micro := some v }
      ∧ v = weightedSum (pinAt s.engine.pins s.engine.pos .w6 8) fun i => pinAt s.engine.pins s.engine.pos i 8)
  ∧ (∀ v : Nat, v ≤ 25 →
      ∃ s : State, s.engine.keyed = true ∧ InRange s.engine.pos ∧ exec .prn s = .next { s with micro := some v })
  ∧ ∀ (inv : Bool) (v : Nat), v ≤ 25 →
      ((Finset.univ : Finset (Bool × Bool × Bool × Bool × Bool)).filter fun b => weightedSum inv (fivePins b) = v).card
        = if 10 ≤ v ∧ v ≤ 15 then 2 else 1

/-- R144: complementing all six pins at +8 leaves the digit unchanged, and the digit depends only on which of wheels 1 to 5
disagree with wheel 6 at +8. -/
def Obligations.ComplementingAllSixPinsLeavesTheDigit : Prop :=
  ∀ s s' : State,
    (∀ i : WheelIx, pinAt s'.engine.pins s'.engine.pos i 8 = !pinAt s.engine.pins s.engine.pos i 8)
      ∨ (∀ i : WheelIx, i ≠ .w6 →
          (pinAt s'.engine.pins s'.engine.pos i 8 = pinAt s'.engine.pins s'.engine.pos .w6 8
            ↔ pinAt s.engine.pins s.engine.pos i 8 = pinAt s.engine.pins s.engine.pos .w6 8)) →
      ∃ v : Nat, exec .prn s = .next { s with micro := some v } ∧ exec .prn s' = .next { s' with micro := some v }

/-- R150: SUB finds the letter's place in the inner ring, which is unique, and returns the letter `prn` places further on in
the outer ring, modulo 26; it writes no register and has no encoding. The rings are the source's two strings. -/
def Obligations.SubReadsTheOuterRingFromTheInnerPlace : Prop :=
  ∀ (c : Letter) (digit : Nat) (s : State),
    ∃ (j : Nat) (o : Letter),
      encode (.sub c digit) = none ∧ j < 26 ∧ innerRing[j]? = some (letterChar c) ∧ (∀ k : Nat, innerRing[k]? = some (letterChar c) → k = j)
      ∧ outerRing[(j + digit) % 26]? = some (letterChar o)
      ∧ exec (.sub c digit) s = .next { s with micro := some o.val }

/-- R152: `SUB(c, prn) = INNER[(5 - idx_in(c) - prn) mod 26]`. -/
def Obligations.SubIsAReflectionOfTheInnerRing : Prop :=
  ∀ (c : Letter) (digit : Nat) (s : State), digit ≤ 25 →
    ∃ o : Letter, exec (.sub c digit) s = .next { s with micro := some o.val }
      ∧ innerRing[((5 - (idxIn c : Int) - (digit : Int)) % 26).toNat]? = some (letterChar o)

/-- R153: for each digit SUB is its own inverse. -/
def Obligations.SubIsItsOwnInverse : Prop :=
  ∀ (c : Letter) (digit : Nat) (s : State), digit ≤ 25 →
    ∃ o : Letter, exec (.sub c digit) s = .next { s with micro := some o.val }
      ∧ exec (.sub o digit) s = .next { s with micro := some c.val }

/-- R154: a letter is its own image exactly when `2 * idx_in(c) = 5 - prn (mod 26)`: never for an even digit, and for an odd
one exactly for two letters, 13 places apart in the inner ring, those of the rule's table. -/
def Obligations.SubFixesNoLetterOrTwo : Prop :=
  ∀ (digit : Nat) (s : State), digit ≤ 25 →
    (∀ c : Letter, exec (.sub c digit) s = .next { s with micro := some c.val }
        ↔ (2 * (idxIn c : Int)) % 26 = (5 - (digit : Int)) % 26)
    ∧ (digit % 2 = 0 → ∀ c : Letter, exec (.sub c digit) s ≠ .next { s with micro := some c.val })
    ∧ (digit % 2 = 1 → ∃ a b : Letter, a ≠ b ∧ idxIn b = (idxIn a + 13) % 26
        ∧ ∀ c : Letter, exec (.sub c digit) s = .next { s with micro := some c.val } ↔ c = a ∨ c = b)
    ∧ ∀ x y : Char, (digit, x, y) ∈ fixedLetters → ∀ c : Letter,
        exec (.sub c digit) s = .next { s with micro := some c.val } ↔ letterChar c = x ∨ letterChar c = y

/-- R155: input and output of a SUB determine the digit: `prn = (idx_out(o) - idx_in(c)) mod 26`. -/
def Obligations.InputAndOutputDetermineTheDigit : Prop :=
  ∀ (c o : Letter) (digit : Nat) (s : State), digit ≤ 25 →
    exec (.sub c digit) s = .next { s with micro := some o.val } →
      (digit : Int) = ((idxOut o : Int) - (idxIn c : Int)) % 26

/-! ### Faults and whole-machine rules -/

/-- R167: the response's status is decided by the tests in their order: the frame (BadCommand), the key (NotKeyed), the
command's own validation (InvalidArgument, or InvalidCharacter for ENC and DEC); OK if all pass. -/
def Obligations.TheStatusFollowsTheOrderOfTheTests : Prop :=
  ∀ (s : State) (p : Port) (octets : List Byte) (rest : List Input), s.inputs = .frame p octets :: rest →
    ∃ (t : State) (payload : List Byte), step s = .next t
      ∧ t.response = some ⟨p, expectedStatus s p octets :: payload⟩

/-- R163, with R34: on a unit without a key every command but LOADKEY and W.LOAD answers NotKeyed and changes nothing. -/
def Obligations.AUnitWithoutAKeyRefusesAllButLoading : Prop :=
  ∀ (s : State) (p : Port) (octets : List Byte) (rest : List Input), s.inputs = .frame p octets :: rest →
    isCommandFrame p octets = true → needsKey octets = true → holdsKey s p = false →
      step s = .next { s with inputs := rest, response := some ⟨p, [0x03]⟩ }

/-- R169: a command that faults writes no register, flag or pin, and its response is the single status octet. -/
def Obligations.AFaultChangesNoState : Prop :=
  ∀ (s t : State) (p : Port) (octets payload : List Byte) (rest : List Input) (f : Byte),
    s.inputs = .frame p octets :: rest → step s = .next t → t.response = some ⟨p, f :: payload⟩ → f ≠ 0x00 →
      t = { s with inputs := rest, response := some ⟨p, [f]⟩ }

/-- R170: after a fault response the machine goes on exactly as if the faulting command had never been sent. -/
def Obligations.AfterAFaultTheNextInputActsAsIfItHadNotBeen : Prop :=
  ∀ (s t : State) (p : Port) (octets payload : List Byte) (x : Input) (rest : List Input) (f : Byte),
    s.inputs = .frame p octets :: x :: rest → step s = .next t → t.response = some ⟨p, f :: payload⟩ → f ≠ 0x00 →
      step t = step { s with inputs := x :: rest }

/-- R193: a LOADKEY that faults during boot leaves the engine without a key, and the next command other than LOADKEY is
answered NotKeyed. -/
def Obligations.ARefusedLoadkeyLeavesTheEngineUnkeyed : Prop :=
  ∀ (s : State) (recs : List KeyRecord) (octets : List Byte) (rest : List Input),
    s.engine.keyed = false → ¬KeyLegal recs → s.inputs = .frame .engine octets :: rest →
    isCommandFrame .engine octets = true → octets.head? ≠ some 0x01 →
      ∃ t u : State, exec (.loadkey recs) s = .next t ∧ t.response = some ⟨.engine, [0x01]⟩
        ∧ t.engine.keyed = false ∧ step t = .next u ∧ u.response = some ⟨.engine, [0x03]⟩ ∧ u.engine = s.engine

/-- The flag and the pins of the engine (10_state.md sections 3 and 4): only a LOADKEY answered OK, which sets the flag, and
the engine's reset input, which clears it, change `keyed` or any pin register. -/
def Obligations.OnlyLoadkeyAndResetChangeTheFlagOrThePins : Prop :=
  ∀ s t : State, step s = .next t →
    (t.engine.keyed ≠ s.engine.keyed ∨ t.engine.pins ≠ s.engine.pins) →
      (∃ (octets : List Byte) (rest : List Input), s.inputs = .frame .engine (0x01 :: octets) :: rest
        ∧ t.response = some ⟨.engine, [0x00]⟩ ∧ t.engine.keyed = true)
      ∨ ∃ rest : List Input, s.inputs = .reset .engine :: rest ∧ t.engine.keyed = false

/-- The two units share nothing (40_wheel.md R96, 30_encoding.md R61): an input of one unit leaves the other as it was, and
two inputs of different units may be delivered in either order with the same units after them and the same answers. -/
def Obligations.TheEngineAndTheWheelUnitShareNothing : Prop :=
  ∀ (s : State) (x y : Input) (rest : List Input),
    x = .reset .engine ∨ (∃ octets, x = .frame .engine octets) →
    y = .reset .wheel ∨ (∃ octets, y = .frame .wheel octets) →
      ∃ tx ty txy tyx : State,
        step { s with inputs := x :: y :: rest } = .next tx ∧ step tx = .next txy
        ∧ step { s with inputs := y :: x :: rest } = .next ty ∧ step ty = .next tyx
        ∧ tx.wheel = s.wheel ∧ ty.engine = s.engine
        ∧ txy.engine = tyx.engine ∧ txy.wheel = tyx.wheel
        ∧ tx.response = tyx.response ∧ txy.response = ty.response

/-- 93_implementation_defined.md V1 and V2: no response and no status output depends on a register that holds no value. Two
states that differ at most in the pins and positions of an engine without a key and in the size, pins and position of a
Wheel unit not loaded step to two such states, and show the same. -/
def Obligations.RegistersWithoutAValueAreNeverSeen : Prop :=
  ∀ s s' t t' : State, AgreeWhereKeyed s s' → step s = .next t → step s' = .next t' →
    AgreeWhereKeyed t t' ∧ observe t = observe t'

/-- R10 and R200: a run is determined by the registers that hold a value at its start and by what is delivered: two such
states show the same observations for every sequence of inputs. -/
def Obligations.EqualKeysAndInputsGiveEqualObservations : Prop :=
  ∀ (xs : List Input) (s s' : State), AgreeWhereKeyed s s' →
    observations xs s = observations xs s' ∧ (observations xs s).length = xs.length

/-! ### Frames -/

/-- What the engine commands leave unchanged: LOADKEY the Wheel unit, both rings and the spare fields of the machine; REPOS,
ENC and DEC besides these the flag, every pin register and so every cell of every address space. -/
def Obligations.EngineCommandsLeaveTheRestUnchanged : Prop :=
  ∀ (s t : State) (i : Instr), exec i s = .next t →
    ((∃ recs, i = .loadkey recs) →
      t.wheel = s.wheel ∧ t.inputs = s.inputs ∧ t.micro = s.micro
      ∧ ∀ (sp : Space) (j : Nat), (∀ w, sp ≠ .pin w) → t.memRead sp j = s.memRead sp j)
    ∧ ((∃ xs, i = .repos xs ∨ i = .enc xs ∨ i = .dec xs) →
      t.engine.keyed = s.engine.keyed ∧ t.engine.pins = s.engine.pins
      ∧ t.wheel = s.wheel ∧ t.inputs = s.inputs ∧ t.micro = s.micro
      ∧ ∀ (sp : Space) (j : Nat), t.memRead sp j = s.memRead sp j)

/-- What the wheel commands leave unchanged: all three the engine; W.STEP besides that everything of the unit but the
position, W.PEEK every register; W.LOAD may write the whole unit. -/
def Obligations.WheelCommandsLeaveTheRestUnchanged : Prop :=
  ∀ (s t : State) (i : Instr), exec i s = .next t →
    ((∃ len pos v, i = .wLoad len pos v) →
      t.engine = s.engine ∧ t.inputs = s.inputs ∧ t.micro = s.micro
      ∧ ∀ (sp : Space) (j : Nat), sp ≠ .wheelPin → t.memRead sp j = s.memRead sp j)
    ∧ ((∃ off, i = .wPeek off) →
      t.engine = s.engine ∧ t.wheel = s.wheel ∧ t.inputs = s.inputs ∧ t.micro = s.micro
      ∧ ∀ (sp : Space) (j : Nat), t.memRead sp j = s.memRead sp j)
    ∧ (i = .wStep →
      t.engine = s.engine ∧ t.wheel.loaded = s.wheel.loaded ∧ t.wheel.size = s.wheel.size
      ∧ t.wheel.pins = s.wheel.pins ∧ t.inputs = s.inputs ∧ t.micro = s.micro
      ∧ ∀ (sp : Space) (j : Nat), t.memRead sp j = s.memRead sp j)

/-- What the micro-operations leave unchanged: the flag, every pin register and cell, the Wheel unit, what is to be delivered
and the last response; STEPALL, PRESTEP and POSTSTEP return no value, and PRN and SUB write no register at all. -/
def Obligations.MicroOperationsLeaveTheRestUnchanged : Prop :=
  ∀ (s t : State) (i : Instr), i.port = none → exec i s = .next t →
    t.engine.keyed = s.engine.keyed ∧ t.engine.pins = s.engine.pins ∧ t.wheel = s.wheel
    ∧ t.inputs = s.inputs ∧ t.response = s.response
    ∧ (∀ (sp : Space) (j : Nat), t.memRead sp j = s.memRead sp j)
    ∧ (i = .stepall ∨ i = .prestep ∨ i = .poststep → t.micro = s.micro)
    ∧ (i = .prn ∨ (∃ c digit, i = .sub c digit) → t.engine = s.engine)

/-! ### Status outputs -/

/-- The status outputs (10_state.md section 4): `keyed` shows the flag; while it is 1, `pos_i` shows `P[i]` for every wheel,
and this is what an observation holds. -/
def Obligations.TheStatusOutputsShowTheFlagAndThePositions : Prop :=
  ∀ s : State,
    s.keyedOut = s.engine.keyed
    ∧ (s.engine.keyed = true →
        (∀ i : WheelIx, s.posOut i = some (s.engine.pos.get i))
        ∧ observe s = ⟨s.response, true,
            [some s.engine.pos.p1, some s.engine.pos.p2, some s.engine.pos.p3,
              some s.engine.pos.p4, some s.engine.pos.p5, some s.engine.pos.p6]⟩)

/-- What the status outputs show after a command (10_state.md sections 4 and 8): after a legal LOADKEY `keyed` is 1 and
`pos_i` is the position of record i-1; after a legal REPOS on a keyed engine, its position i-1; after ENC or DEC of letters,
the positions after as many CHARs; and after a message with a bad character, what they showed before. -/
def Obligations.TheStatusOutputsFollowTheCommands : Prop :=
  (∀ (recs : List KeyRecord) (s : State), KeyLegal recs →
    ∃ t : State, exec (.loadkey recs) s = .next t ∧ t.keyedOut = true
      ∧ ∀ (w : WheelIx) (r : KeyRecord), recs[recordNo w]? = some r →
          ∃ p : BitVec 5, t.posOut w = some p ∧ (p.toNat : Int) = r.pos.toInt)
  ∧ (∀ (ps : List Byte) (s : State), s.engine.keyed = true → PositionsLegal ps →
    ∃ t : State, exec (.repos ps) s = .next t ∧ t.keyedOut = true
      ∧ ∀ (w : WheelIx) (b : Byte), ps[recordNo w]? = some b →
          ∃ p : BitVec 5, t.posOut w = some p ∧ (p.toNat : Int) = b.toInt)
  ∧ ∀ (cs : List Byte) (s : State) (i : Instr), i = .enc cs ∨ i = .dec cs → s.engine.keyed = true →
    ∃ t : State, exec i s = .next t ∧ t.keyedOut = true
      ∧ (LettersOnly cs → ∀ w, t.posOut w = some ((charTn s.engine.pins s.engine.pos cs.length).get w))
      ∧ (¬LettersOnly cs → ∀ w, t.posOut w = s.posOut w)
end

