-- ==== Sys2Proof/Laws/Decode.lean ====
section
/-! SUPPORT. The pieces of the encoding read back: pin octets, counts, wheel records. -/

namespace Sys2Proof

theorem pinsOfOctets_octetsOfPins (v : BitVec 32) :
    pinsOfOctets (v.extractLsb' 0 8) (v.extractLsb' 8 8) (v.extractLsb' 16 8) (v.extractLsb' 24 8) = v := by
  apply BitVec.eq_of_getLsbD_eq
  intro i hi
  simp only [pinsOfOctets, BitVec.getLsbD_append, BitVec.getLsbD_extractLsb']
  have : i < 8 ∨ (8 ≤ i ∧ i < 16) ∨ (16 ≤ i ∧ i < 24) ∨ (24 ≤ i ∧ i < 32) := by omega
  rcases this with h | ⟨h, h'⟩ | ⟨h, h'⟩ | ⟨h, h'⟩ <;> simp (disch := omega) <;> grind

theorem octetsOfPins_pinsOfOctets (q0 q1 q2 q3 : Byte) :
    octetsOfPins (pinsOfOctets q0 q1 q2 q3) = [q0, q1, q2, q3] := by
  simp only [octetsOfPins, pinsOfOctets, List.cons.injEq, and_true]
  refine ⟨?_, ?_, ?_, ?_⟩ <;>
    (apply BitVec.eq_of_getLsbD_eq; intro i hi; simp only [BitVec.getLsbD_append, BitVec.getLsbD_extractLsb']; grind)

theorem countOfOctets_lt (lo hi : Byte) : countOfOctets lo hi < 65536 := by
  unfold countOfOctets; omega

theorem countOfOctets_of_count {n : Nat} (h : n < 65536) :
    countOfOctets (BitVec.ofNat 8 n) (BitVec.ofNat 8 (n / 256)) = n := by
  simp only [countOfOctets, BitVec.toNat_ofNat]; omega

theorem octetsOfCount_countOfOctets (lo hi : Byte) : octetsOfCount (countOfOctets lo hi) = [lo, hi] := by
  simp only [octetsOfCount, countOfOctets, List.cons.injEq, and_true]
  constructor <;> (apply BitVec.eq_of_toNat_eq; simp only [BitVec.toNat_ofNat]; omega)

theorem octets_length (r : KeyRecord) : r.octets.length = 6 := rfl

theorem flatMap_octets_length (rs : List KeyRecord) : (rs.flatMap KeyRecord.octets).length = 6 * rs.length := by
  induction rs with
  | nil => rfl
  | cons r rs ih => simp only [List.flatMap_cons, List.length_append, ih, octets_length, List.length_cons]; omega

/-- Records read back from their octets. -/
theorem decodeRecords_flatMap (rs : List KeyRecord) : decodeRecords (rs.flatMap KeyRecord.octets) = some rs := by
  induction rs with
  | nil => rfl
  | cons r rs ih =>
    simp only [List.flatMap_cons, KeyRecord.octets, octetsOfPins, List.cons_append, List.nil_append, decodeRecords]
    rw [ih]
    simp only [pinsOfOctets_octetsOfPins]

/-- A body of `6 * n` octets holds n records, whose octets it is. -/
theorem decodeRecords_of_length (n : Nat) (body : List Byte) (h : body.length = 6 * n) :
    ∃ rs, decodeRecords body = some rs ∧ rs.length = n ∧ rs.flatMap KeyRecord.octets = body := by
  induction n generalizing body with
  | zero =>
    have : body = [] := List.eq_nil_of_length_eq_zero (by omega)
    exact ⟨[], by simp [this, decodeRecords]⟩
  | succ n ih =>
    match body, h with
    | len :: pos :: q0 :: q1 :: q2 :: q3 :: rest, h =>
      obtain ⟨rs, hd, hl, hf⟩ := ih rest (by simp only [List.length_cons] at h; omega)
      refine ⟨⟨len, pos, pinsOfOctets q0 q1 q2 q3⟩ :: rs, ?_, ?_, ?_⟩
      · simp only [decodeRecords, hd]
      · simp only [List.length_cons, hl]
      · simp only [List.flatMap_cons, KeyRecord.octets, octetsOfPins_pinsOfOctets, hf, List.cons_append,
          List.nil_append]

end Sys2Proof
end

