-- ==== Sys2Proof/Laws/State.lean ====
section
/-! SUPPORT. The fields of State and of the register files after each update, and that the address spaces depend on the
registers alone. -/

namespace Sys2Proof

theorem WheelIx.size_pos (i : WheelIx) : 0 < i.size := by cases i <;> decide

theorem WheelIx.size_le (i : WheelIx) : i.size ≤ 25 := by cases i <;> decide

theorem WheelIx.mem_all (i : WheelIx) : i ∈ WheelIx.all := by cases i <;> decide

end Sys2Proof

namespace Sys2Proof.Machine

@[simp] theorem State.withEngine_engine (s : State) (e : Engine) : (s.withEngine e).engine = e := rfl
@[simp] theorem State.withEngine_wheel (s : State) (e : Engine) : (s.withEngine e).wheel = s.wheel := rfl
@[simp] theorem State.withEngine_inputs (s : State) (e : Engine) : (s.withEngine e).inputs = s.inputs := rfl
@[simp] theorem State.withEngine_response (s : State) (e : Engine) : (s.withEngine e).response = s.response := rfl
@[simp] theorem State.withEngine_micro (s : State) (e : Engine) : (s.withEngine e).micro = s.micro := rfl

@[simp] theorem State.withWheel_engine (s : State) (w : WheelUnit) : (s.withWheel w).engine = s.engine := rfl
@[simp] theorem State.withWheel_wheel (s : State) (w : WheelUnit) : (s.withWheel w).wheel = w := rfl
@[simp] theorem State.withWheel_inputs (s : State) (w : WheelUnit) : (s.withWheel w).inputs = s.inputs := rfl
@[simp] theorem State.withWheel_response (s : State) (w : WheelUnit) : (s.withWheel w).response = s.response := rfl
@[simp] theorem State.withWheel_micro (s : State) (w : WheelUnit) : (s.withWheel w).micro = s.micro := rfl

@[simp] theorem State.withInputs_engine (s : State) (xs : List Input) : (s.withInputs xs).engine = s.engine := rfl
@[simp] theorem State.withInputs_wheel (s : State) (xs : List Input) : (s.withInputs xs).wheel = s.wheel := rfl
@[simp] theorem State.withInputs_inputs (s : State) (xs : List Input) : (s.withInputs xs).inputs = xs := rfl
@[simp] theorem State.withInputs_response (s : State) (xs : List Input) : (s.withInputs xs).response = s.response := rfl
@[simp] theorem State.withInputs_micro (s : State) (xs : List Input) : (s.withInputs xs).micro = s.micro := rfl

@[simp] theorem State.returning_engine (s : State) (v : Nat) : (s.returning v).engine = s.engine := rfl
@[simp] theorem State.returning_wheel (s : State) (v : Nat) : (s.returning v).wheel = s.wheel := rfl
@[simp] theorem State.returning_inputs (s : State) (v : Nat) : (s.returning v).inputs = s.inputs := rfl
@[simp] theorem State.returning_response (s : State) (v : Nat) : (s.returning v).response = s.response := rfl
@[simp] theorem State.returning_micro (s : State) (v : Nat) : (s.returning v).micro = some v := rfl

@[simp] theorem State.respond_engine (s : State) (p : Port) (o : List Byte) : (s.respond p o).engine = s.engine := rfl
@[simp] theorem State.respond_wheel (s : State) (p : Port) (o : List Byte) : (s.respond p o).wheel = s.wheel := rfl
@[simp] theorem State.respond_inputs (s : State) (p : Port) (o : List Byte) : (s.respond p o).inputs = s.inputs := rfl
@[simp] theorem State.respond_response (s : State) (p : Port) (o : List Byte) :
    (s.respond p o).response = some ⟨p, o⟩ := rfl
@[simp] theorem State.respond_micro (s : State) (p : Port) (o : List Byte) : (s.respond p o).micro = s.micro := rfl

@[simp] theorem State.respondOk_engine (s : State) (p : Port) (o : List Byte) : (s.respondOk p o).engine = s.engine := rfl
@[simp] theorem State.respondOk_wheel (s : State) (p : Port) (o : List Byte) : (s.respondOk p o).wheel = s.wheel := rfl
@[simp] theorem State.respondOk_inputs (s : State) (p : Port) (o : List Byte) : (s.respondOk p o).inputs = s.inputs := rfl
@[simp] theorem State.respondOk_response (s : State) (p : Port) (o : List Byte) :
    (s.respondOk p o).response = some ⟨p, 0x00 :: o⟩ := rfl
@[simp] theorem State.respondOk_micro (s : State) (p : Port) (o : List Byte) : (s.respondOk p o).micro = s.micro := rfl

@[simp] theorem State.raise_engine (s : State) (p : Port) (f : FaultKind) : (s.raise p f).engine = s.engine := rfl
@[simp] theorem State.raise_wheel (s : State) (p : Port) (f : FaultKind) : (s.raise p f).wheel = s.wheel := rfl
@[simp] theorem State.raise_inputs (s : State) (p : Port) (f : FaultKind) : (s.raise p f).inputs = s.inputs := rfl
@[simp] theorem State.raise_response (s : State) (p : Port) (f : FaultKind) :
    (s.raise p f).response = some ⟨p, [f.code]⟩ := rfl
@[simp] theorem State.raise_micro (s : State) (p : Port) (f : FaultKind) : (s.raise p f).micro = s.micro := rfl

@[simp] theorem State.idle_engine (s : State) : s.idle.engine = s.engine := rfl
@[simp] theorem State.idle_wheel (s : State) : s.idle.wheel = s.wheel := rfl
@[simp] theorem State.idle_inputs (s : State) : s.idle.inputs = s.inputs := rfl
@[simp] theorem State.idle_response (s : State) : s.idle.response = none := rfl
@[simp] theorem State.idle_micro (s : State) : s.idle.micro = s.micro := rfl

@[simp] theorem State.resetUnit_inputs (s : State) (u : Port) : (s.resetUnit u).inputs = s.inputs := by cases u <;> rfl
@[simp] theorem State.resetUnit_response (s : State) (u : Port) : (s.resetUnit u).response = none := by cases u <;> rfl
@[simp] theorem State.resetUnit_engine_engine (s : State) : (s.resetUnit .engine).engine = Engine.reset := rfl
@[simp] theorem State.resetUnit_engine_micro (s : State) : (s.resetUnit .engine).micro = none := rfl
@[simp] theorem State.resetUnit_engine_wheel (s : State) : (s.resetUnit .engine).wheel = s.wheel := rfl
@[simp] theorem State.resetUnit_wheel_engine (s : State) : (s.resetUnit .wheel).engine = s.engine := rfl
@[simp] theorem State.resetUnit_wheel_wheel (s : State) : (s.resetUnit .wheel).wheel = WheelUnit.reset := rfl
@[simp] theorem State.resetUnit_wheel_micro (s : State) : (s.resetUnit .wheel).micro = s.micro := rfl

@[simp] theorem Positions.get_set_self (p : Positions) (i : WheelIx) (v : BitVec 5) : (p.set i v).get i = v := by
  cases i <;> rfl

theorem Positions.get_set_of_ne (p : Positions) {i j : WheelIx} (v : BitVec 5) (h : i ≠ j) :
    (p.set i v).get j = p.get j := by
  cases i <;> cases j <;> first | rfl | exact absurd rfl h

/-- Two position files with the same six registers are the same. -/
theorem Positions.ext_get {p q : Positions} (h : ∀ i, p.get i = q.get i) : p = q := by
  cases p; cases q
  have h1 := h .w1; have h2 := h .w2; have h3 := h .w3; have h4 := h .w4; have h5 := h .w5; have h6 := h .w6
  simp only [Positions.get] at h1 h2 h3 h4 h5 h6
  simp only [h1, h2, h3, h4, h5, h6]

/-- An address space reads the pin registers and the Wheel unit's size and pins, and nothing else of the state. -/
theorem State.memRead_congr {s t : State} (hp : t.engine.pins = s.engine.pins) (hz : t.wheel.size = s.wheel.size)
    (hw : t.wheel.pins = s.wheel.pins) (sp : Space) (j : Nat) : t.memRead sp j = s.memRead sp j := by
  have hc : t.cells sp = s.cells sp := by cases sp <;> simp only [State.cells, hz]
  unfold State.memRead
  rw [hc]
  cases sp <;> simp only [hp, hw]

/-- The index of a pin read is a cell of its space, for every offset (R41). -/
theorem pinIndex_lt {size : Nat} (pos : Nat) (off : Int) (h : 0 < size) : pinIndex size pos off < size := by
  have h1 := Int.emod_nonneg ((pos : Int) + off) (b := (size : Int)) (by omega)
  have h2 := Int.emod_lt_of_pos ((pos : Int) + off) (b := (size : Int)) (by omega)
  unfold pinIndex
  omega

end Sys2Proof.Machine
end

