-- ==== Sys2Proof/Laws/Exec.lean ====
section
/-! SUPPORT. What a step and each shared operation can do, said once: the step by its next input, the two flag tests, a
message, a pass at one wheel, a CHAR. -/

namespace Sys2Proof.Machine

theorem step_idle {s : State} (h : s.inputs = []) : step s = .next s.idle := by
  simp only [step, State.takeInput, h]

theorem step_reset {s : State} {u : Port} {rest : List Input} (h : s.inputs = .reset u :: rest) :
    step s = .next ((s.withInputs rest).resetUnit u) := by
  simp only [step, State.takeInput, h]

theorem step_command {s : State} {p : Port} {octets : List Byte} {rest : List Input} {i : Instr}
    (h : s.inputs = .frame p octets :: rest) (hd : decode p octets = .ok i) :
    step s = exec i (s.withInputs rest) := by
  simp only [step, State.takeInput, h, hd]

theorem step_noCommand {s : State} {p : Port} {octets : List Byte} {rest : List Input} {e : DecodeError}
    (h : s.inputs = .frame p octets :: rest) (hd : decode p octets = .error e) :
    step s = .next ((s.withInputs rest).raise p .badCommand) := by
  simp only [step, State.takeInput, h, hd]

/-- Every instruction answers a next state: nothing stops the machine. -/
theorem exec_next (i : Instr) (s : State) : ∃ t, exec i s = .next t := by
  cases i with
  | wLoad len pos v =>
    simp only [exec, execWLoad]
    split
    · exact ⟨_, rfl⟩
    · split <;> exact ⟨_, rfl⟩
  | _ => exact ⟨_, rfl⟩

/-- Every step answers a next state. -/
theorem step_next (s : State) : ∃ t, step s = .next t := by
  cases h : s.inputs with
  | nil => exact ⟨_, step_idle h⟩
  | cons x rest =>
    cases x with
    | reset u => exact ⟨_, step_reset h⟩
    | frame p octets =>
      cases hd : decode p octets with
      | ok i => rw [step_command h hd]; exact exec_next i _
      | error e => exact ⟨_, step_noCommand h hd⟩

theorem State.whenKeyed_of_keyed {s : State} (t : State) (h : s.engine.keyed = true) : s.whenKeyed t = t := by
  simp only [State.whenKeyed, h, if_true]

theorem State.whenKeyed_of_unkeyed {s : State} (t : State) (h : s.engine.keyed = false) :
    s.whenKeyed t = s.raise .engine .notKeyed := by
  simp [State.whenKeyed, h]

theorem State.whenLoaded_of_loaded {s : State} (t : State) (h : s.wheel.loaded = true) : s.whenLoaded t = t := by
  simp only [State.whenLoaded, h, if_true]

theorem State.whenLoaded_of_unloaded {s : State} (t : State) (h : s.wheel.loaded = false) :
    s.whenLoaded t = s.raise .wheel .notKeyed := by
  simp [State.whenLoaded, h]

/-- A message either is refused whole or is processed whole (R104). -/
theorem message_cases (cs : List Byte) (s : State) :
    (cs.all isLetterCode = false ∧ message cs s = s.raise .engine .invalidCharacter)
    ∨ (cs.all isLetterCode = true ∧ message cs s =
        (s.withEngine (s.engine.process (cs.map letterOf)).2).respondOk .engine
          (octetsOfCount cs.length ++ (s.engine.process (cs.map letterOf)).1.map codeOf)) := by
  unfold message
  cases cs.all isLetterCode <;> simp

@[simp] theorem Engine.step_keyed (e : Engine) (i : WheelIx) : (e.step i).keyed = e.keyed := rfl

@[simp] theorem Engine.step_pins (e : Engine) (i : WheelIx) : (e.step i).pins = e.pins := rfl

/-- A step of a wheel moves that wheel one place, modulo its size, and no other (R93). -/
theorem Engine.step_get (e : Engine) (i j : WheelIx) :
    ((e.step i).pos.get j).toNat =
      if j = i then ((e.pos.get i).toNat + 1) % i.size else (e.pos.get j).toNat := by
  by_cases h : j = i
  · subst h
    have hs := j.size_le
    have hp := j.size_pos
    have hm := Nat.mod_lt ((e.pos.get j).toNat + 1) hp
    simp only [Engine.step, Positions.get_set_self, nextPos, BitVec.toNat_ofNat, if_true]
    omega
  · simp only [Engine.step, h, if_false]
    rw [Positions.get_set_of_ne _ _ (Ne.symm h)]

@[simp] theorem Engine.passAt_keyed (e : Engine) (i : WheelIx) : (e.passAt i).keyed = e.keyed := by
  unfold Engine.passAt; split <;> rfl

@[simp] theorem Engine.passAt_pins (e : Engine) (i : WheelIx) : (e.passAt i).pins = e.pins := by
  unfold Engine.passAt; split <;> rfl

/-- A pass writes positions only (R130). -/
theorem Engine.stepAll_keyed_pins (e : Engine) : e.stepAll.keyed = e.keyed ∧ e.stepAll.pins = e.pins := by
  simp [Engine.stepAll, Config.passOrder]

/-- CHAR writes positions only (R120). -/
theorem Engine.char_keyed_pins (e : Engine) (c : Letter) :
    (e.char c).2.keyed = e.keyed ∧ (e.char c).2.pins = e.pins := by
  have h := Engine.stepAll_keyed_pins
  simp only [Engine.char, Engine.postStep, Engine.preStep]
  split <;> simp [h]

/-- A message writes positions only (R104). -/
theorem Engine.process_keyed_pins (cs : List Letter) (e : Engine) :
    (e.process cs).2.keyed = e.keyed ∧ (e.process cs).2.pins = e.pins := by
  induction cs generalizing e with
  | nil => exact ⟨rfl, rfl⟩
  | cons c cs ih =>
    have h := ih (e.char c).2
    have hc := e.char_keyed_pins c
    exact ⟨h.1.trans hc.1, h.2.trans hc.2⟩

/-- One output letter for each input letter (R103). -/
theorem Engine.process_length (cs : List Letter) (e : Engine) : (e.process cs).1.length = cs.length := by
  induction cs generalizing e with
  | nil => rfl
  | cons c cs ih => simp only [Engine.process, List.length_cons, ih]

end Sys2Proof.Machine
end

