-- ==== Sys2Proof/Laws/PerInstr.lean ====
section
/-! SUPPORT. A fact about every instruction as syntax, one lemma per constructor: the frame of a well-formed command has the
length its format gives (R70), and begins with an opcode of its port (R71); a micro-operation has no frame. -/

namespace Sys2Proof.Laws.FrameLength

/-- The frame of a well-formed instruction, if it has one, has the length its format gives from its octets 0 to 2, and the
port of its opcode is the instruction's. -/
def Statement (i : Instr) : Prop :=
  i.wellFormed = true → ∀ octets, encode i = some octets →
    formatLength (octets.getD 0 0) (octets.getD 1 0) (octets.getD 2 0) = some octets.length
      ∧ i.port = some (portOfOpcode (octets.getD 0 0))

theorem loadkey (recs : List KeyRecord) : Statement (.loadkey recs) := by
  intro hw octets h
  simp only [Instr.wellFormed, decide_eq_true_eq] at hw
  cases h
  have h256 : recs.length % 256 = recs.length := Nat.mod_eq_of_lt (by omega)
  constructor
  · simp [formatLength, BitVec.toNat_ofNat, flatMap_octets_length, -List.length_flatMap, h256]; omega
  · rfl

theorem repos (ps : List Byte) : Statement (.repos ps) := by
  intro hw octets h
  simp only [Instr.wellFormed, decide_eq_true_eq] at hw
  cases h
  have h256 : ps.length % 256 = ps.length := Nat.mod_eq_of_lt (by omega)
  constructor
  · simp [formatLength, BitVec.toNat_ofNat, h256]; omega
  · rfl

theorem enc (cs : List Byte) : Statement (.enc cs) := by
  intro hw octets h
  simp only [Instr.wellFormed, Config.maxLen, decide_eq_true_eq] at hw
  cases h
  have hc := countOfOctets_of_count (n := cs.length) (by omega)
  constructor
  · simp [formatLength, octetsOfCount, hc]; omega
  · rfl

theorem dec (cs : List Byte) : Statement (.dec cs) := by
  intro hw octets h
  simp only [Instr.wellFormed, Config.maxLen, decide_eq_true_eq] at hw
  cases h
  have hc := countOfOctets_of_count (n := cs.length) (by omega)
  constructor
  · simp [formatLength, octetsOfCount, hc]; omega
  · rfl

theorem wLoad (len pos : Byte) (pins : BitVec 32) : Statement (.wLoad len pos pins) := by
  intro _ octets h; cases h; exact ⟨rfl, rfl⟩

theorem wPeek (off : Byte) : Statement (.wPeek off) := by
  intro _ octets h; cases h; exact ⟨rfl, rfl⟩

theorem wStep : Statement .wStep := by
  intro _ octets h; cases h; exact ⟨rfl, rfl⟩

theorem char (c : Letter) : Statement (.char c) := by intro _ octets h; cases h

theorem stepall : Statement .stepall := by intro _ octets h; cases h

theorem prestep : Statement .prestep := by intro _ octets h; cases h

theorem poststep : Statement .poststep := by intro _ octets h; cases h

theorem prn : Statement .prn := by intro _ octets h; cases h

theorem sub (c : Letter) (digit : Nat) : Statement (.sub c digit) := by intro _ octets h; cases h

end Sys2Proof.Laws.FrameLength
end

