-- ==== Sys2Proof/Tests/Slice0.lean ====
section
/-! SUPPORT. The model's own tests: refused ill-formed instructions, words decoded by hand, one step on a small state for each
instruction with the expected values of 95_test_vectors.md, and states that meet the hypotheses of the statements. -/

namespace Sys2Proof.Tests

open Sys2Proof.Machine Sys2Proof.Safety

/-! ### Small states -/

/-- The test key TKA (95_test_vectors.md section 3.1), by the pins values of its four octets. -/
def tka : PinRegs := ⟨0x00D8360D, 0x01745D17, 0x244912, 0x0380E0, 0x8BA2E8, 0xD8360D⟩

/-- The wheel records of TKA at `[0,1,2,3,0,0]` (30_encoding.md R78). -/
def tkaRecords : List KeyRecord :=
  [⟨25, 0, 0x00D8360D⟩, ⟨25, 1, 0x01745D17⟩, ⟨23, 2, 0x00244912⟩,
    ⟨23, 3, 0x000380E0⟩, ⟨24, 0, 0x008BA2E8⟩, ⟨24, 0, 0x00D8360D⟩]

/-- An engine keyed with TKA at the given positions, beside a Wheel unit after reset. -/
def tkaAt (p : Positions) : State := { State.reset with engine := ⟨true, tka, p⟩ }

/-- The loaded Wheel unit of section 2.1, row 7, at a position: size 5, pins 1,0,1,1,0. -/
def wheelAt (pos : BitVec 5) : State := { State.reset with wheel := ⟨true, 5, 0x0D, pos⟩ }

/-- A state with one frame to deliver. -/
def given (s : State) (p : Port) (octets : List Byte) : State := { s with inputs := [.frame p octets] }

/-- The state an outcome leads to. -/
def after (o : Host.Outcome State Fault Refusal) : Option State :=
  match o with
  | .next t => some t
  | .fault _ => none
  | .refused _ => none

/-- What a frame is answered, octets only. -/
def answer (s : State) (p : Port) (octets : List Byte) : Option (List Byte) :=
  (after (step (given s p octets))).bind fun t => t.response.map Response.octets

/-- The positions a frame leaves. -/
def positions (s : State) (p : Port) (octets : List Byte) : Option Positions :=
  (after (step (given s p octets))).map fun t => t.engine.pos

/-- The Wheel unit a frame leaves. -/
def wheelOf (s : State) (octets : List Byte) : Option WheelUnit :=
  (after (step (given s .wheel octets))).map fun t => t.wheel

/-- The letter index of a letter, by hand. -/
def letter (c : Char) : Letter := Fin.ofNat 26 (c.toNat - 65)

/-! ### WellFormed: one ill-formed term for each check -/

theorem test_wf_loadkey_count : (Instr.loadkey (List.replicate 256 ⟨0, 0, 0⟩)).wellFormed = false := by decide +kernel

theorem test_wf_repos_count : (Instr.repos (List.replicate 256 0)).wellFormed = false := by decide +kernel

theorem test_wf_enc_count : (Instr.enc (List.replicate 65536 0x41)).wellFormed = false := by
  rw [Instr.wellFormed, List.length_replicate]; decide

theorem test_wf_dec_count : (Instr.dec (List.replicate 65536 0x41)).wellFormed = false := by
  rw [Instr.wellFormed, List.length_replicate]; decide

theorem test_wf_sub_digit : (Instr.sub 0 26).wellFormed = false ∧ (Instr.sub 0 25).wellFormed = true := by decide

theorem test_wf_accepts :
    (Instr.loadkey tkaRecords).wellFormed = true ∧ (Instr.repos [0, 1, 2, 3, 0, -1]).wellFormed = true
      ∧ (Instr.enc []).wellFormed = true ∧ (Instr.dec [0x31]).wellFormed = true
      ∧ (Instr.wLoad 33 0 0).wellFormed = true := by decide

/-! ### Constants: the rings beside the source's strings -/

/-- R45, R46: the ROMs hold the source's two strings. -/
theorem test_rings : Config.inner.map letterChar = innerRing ∧ Config.outer.map letterChar = outerRing := by decide +kernel

/-! ### Decoding: words written out from the spec's encodings -/

/-- The engine commands, R78 octet by octet: opcode, count, operands; a count of two octets has its low octet first (R62). -/
theorem test_decode_engine :
    decode .engine [0x02, 0x06, 0x00, 0x01, 0x02, 0x03, 0x00, 0xFF] = .ok (.repos [0, 1, 2, 3, 0, -1])
      ∧ decode .engine [0x10, 0x02, 0x00, 0x41, 0x42] = .ok (.enc [0x41, 0x42])
      ∧ decode .engine [0x11, 0x02, 0x00, 0x41, 0x42] = .ok (.dec [0x41, 0x42])
      ∧ decode .engine (0x10 :: 0x00 :: 0x01 :: List.replicate 256 0x5A) = .ok (.enc (List.replicate 256 0x5A))
      ∧ decode .engine [0x01, 0x01, 0x19, 0x18, 0x0D, 0x36, 0xD8, 0x00] = .ok (.loadkey [⟨25, 24, 0x00D8360D⟩]) := by
  decide +kernel

/-- The wheel commands: section 2.1 rows 7, 23, 9 and 15. -/
theorem test_decode_wheel :
    decode .wheel [0x21, 0x05, 0x03, 0x0D, 0x00, 0x00, 0x00] = .ok (.wLoad 5 3 0x0000000D)
      ∧ decode .wheel [0x21, 0x05, 0x03, 0xED, 0xFF, 0xFF, 0xFF] = .ok (.wLoad 5 3 0xFFFFFFED)
      ∧ decode .wheel [0x22, 0xFB] = .ok (.wPeek (-5)) ∧ decode .wheel [0x23] = .ok .wStep := by decide +kernel

/-- Refused by name: empty, an opcode of the other port, a wrong length, no room for the count (R70, R72). -/
theorem test_decode_refuses :
    decode .engine [] = .error .emptyFrame ∧ decode .engine [0x23] = .error (.illegalOpcode 0x23)
      ∧ decode .wheel [0x10, 0x00, 0x00] = .error (.illegalOpcode 0x10)
      ∧ decode .engine [0x10, 0x02, 0x00, 0x41] = .error .wrongLength
      ∧ decode .engine [0x10, 0x01] = .error .wrongLength ∧ decode .wheel [0x23, 0x00] = .error .wrongLength := by
  decide +kernel

/-- The opcode table's rows, eight bits each, the octets above them zero. -/
theorem test_decode_table_words :
    decodeTableWord 8 0x01 = some (.loadkey []) ∧ decodeTableWord 8 0x02 = some (.repos [])
      ∧ decodeTableWord 8 0x10 = some (.enc []) ∧ decodeTableWord 8 0x11 = some (.dec [])
      ∧ decodeTableWord 8 0x21 = some (.wLoad 0 0 0) ∧ decodeTableWord 8 0x22 = some (.wPeek 0)
      ∧ decodeTableWord 8 0x23 = some .wStep ∧ decodeTableWord 8 0x12 = none := by decide +kernel

/-- The next step after `withFetchWord` runs the instruction of the word: LOADKEY with no records is refused, ENC finds no
key, W.STEP finds no wheel. -/
theorem test_fetch_word :
    ((after (step (State.reset.withFetchWord 8 0x01))).bind (·.response)) = some ⟨.engine, [0x01]⟩
      ∧ ((after (step (State.reset.withFetchWord 8 0x10))).bind (·.response)) = some ⟨.engine, [0x03]⟩
      ∧ ((after (step (State.reset.withFetchWord 8 0x23))).bind (·.response)) = some ⟨.wheel, [0x03]⟩ := by decide +kernel

/-! ### One step of each instruction (95_test_vectors.md) -/

/-- Section 2.7, rows 1 and 8: TKA is keyed, with or without the spare bits of wheel 1. -/
theorem test_loadkey_ok :
    (after (exec (.loadkey tkaRecords) State.reset)).map (fun t => (t.engine, t.response))
        = some (⟨true, tka, ⟨0, 1, 2, 3, 0, 0⟩⟩, some ⟨.engine, [0x00]⟩)
      ∧ exec (.loadkey (⟨25, 0, 0xFED8360D⟩ :: tkaRecords.tail)) State.reset = exec (.loadkey tkaRecords) State.reset := by
  exact ⟨by decide +kernel, rfl⟩

/-- Section 2.7, rows 2, 4, 5, 6, 9 and 14: wrong length, positions out of range, wrong count; the old key stays. -/
theorem test_loadkey_refused :
    ∀ recs ∈ [⟨24, 0, 0x00D8360D⟩ :: tkaRecords.tail, tkaRecords.set 2 ⟨23, 23, 0x00244912⟩,
        tkaRecords.set 0 ⟨25, 0xFF, 0x00D8360D⟩, tkaRecords.set 0 ⟨25, 25, 0x00D8360D⟩, tkaRecords.take 5],
      (after (exec (.loadkey recs) (tkaAt ⟨16, 0, 3, 0, 20, 0⟩))).map (fun t => (t.engine, t.response))
        = some ((tkaAt ⟨16, 0, 3, 0, 20, 0⟩).engine, some ⟨.engine, [0x01]⟩) := by decide +kernel

/-- Section 2.8, rows 1 to 4. -/
theorem test_repos :
    answer State.reset .engine [0x02, 0x06, 0x00, 0x01, 0x02, 0x03, 0x00, 0x00] = some [0x03]
      ∧ positions (tkaAt ⟨16, 0, 3, 0, 20, 0⟩) .engine [0x02, 0x06, 0x18, 0x18, 0x16, 0x16, 0x17, 0x17]
        = some ⟨24, 24, 22, 22, 23, 23⟩
      ∧ answer (tkaAt ⟨16, 0, 3, 0, 20, 0⟩) .engine [0x02, 0x06, 0x00, 0x01, 0x17, 0x03, 0x00, 0x00] = some [0x01] := by
  decide +kernel

/-- Section 2.9, rows 5 and 15. -/
theorem test_enc :
    answer (tkaAt ⟨24, 24, 22, 22, 23, 23⟩) .engine [0x10, 0x01, 0x00, 0x41] = some [0x00, 0x01, 0x00, 0x4D]
      ∧ positions (tkaAt ⟨24, 24, 22, 22, 23, 23⟩) .engine [0x10, 0x01, 0x00, 0x41] = some ⟨0, 1, 0, 0, 1, 0⟩
      ∧ answer (tkaAt ⟨24, 24, 22, 22, 23, 23⟩) .engine [0x10, 0x03, 0x00, 0x41, 0x42, 0x31] = some [0x02]
      ∧ positions (tkaAt ⟨24, 24, 22, 22, 23, 23⟩) .engine [0x10, 0x03, 0x00, 0x41, 0x42, 0x31]
        = some ⟨24, 24, 22, 22, 23, 23⟩ := by decide +kernel

/-- Section 3.2, program P1 step 3: the ten letters of SCHLUESSEL. -/
theorem test_enc_schluessel :
    answer (tkaAt ⟨0, 1, 2, 3, 0, 0⟩) .engine
        [0x10, 0x0A, 0x00, 0x53, 0x43, 0x48, 0x4C, 0x55, 0x45, 0x53, 0x53, 0x45, 0x4C]
      = some [0x00, 0x0A, 0x00, 0x50, 0x54, 0x48, 0x53, 0x4E, 0x4F, 0x46, 0x4B, 0x56, 0x50] := by decide +kernel

/-- Section 3.2, program P1 step 5. -/
theorem test_dec_schluessel :
    answer (tkaAt ⟨0, 1, 2, 3, 0, 0⟩) .engine
        [0x11, 0x0A, 0x00, 0x50, 0x54, 0x48, 0x53, 0x4E, 0x4F, 0x46, 0x4B, 0x56, 0x50]
      = some [0x00, 0x0A, 0x00, 0x53, 0x43, 0x48, 0x4C, 0x55, 0x45, 0x53, 0x53, 0x45, 0x4C] := by decide +kernel

/-- Section 2.9, rows 2 and 17. -/
theorem test_dec :
    answer State.reset .engine [0x11, 0x01, 0x00, 0x61] = some [0x03]
      ∧ answer (tkaAt ⟨24, 24, 22, 22, 23, 23⟩) .engine [0x11, 0x01, 0x00, 0x4D] = some [0x00, 0x01, 0x00, 0x41] := by
  decide +kernel

/-- Section 2.1, rows 7, 23 and 27. -/
theorem test_wload :
    wheelOf State.reset [0x21, 0x05, 0x03, 0x0D, 0x00, 0x00, 0x00] = some ⟨true, 5, 0x0D, 3⟩
      ∧ wheelOf State.reset [0x21, 0x05, 0x03, 0xED, 0xFF, 0xFF, 0xFF] = some ⟨true, 5, 0x0D, 3⟩
      ∧ wheelOf State.reset [0x21, 0x20, 0x1F, 0xFF, 0xFF, 0xFF, 0xFF] = some ⟨true, 32, 0xFFFFFFFF, 31⟩ := by
  decide +kernel

/-- Section 2.1, rows 3 to 6 and 19. -/
theorem test_wload_refused :
    (∀ f ∈ [[0x21, 0x00, 0x00, 0x00, 0x00, 0x00, 0x00], [0x21, 0x05, 0x05, 0x0D, 0x00, 0x00, 0x00],
          [0x21, 0x05, 0xFF, 0x0D, 0x00, 0x00, 0x00], [0x21, 0x21, 0x00, 0xFF, 0xFF, 0xFF, 0xFF]],
        answer State.reset .wheel f = some [0x01] ∧ wheelOf (wheelAt 0) f = some (wheelAt 0).wheel) := by decide +kernel

/-- Section 2.1, rows 1 and 8 to 14. -/
theorem test_wpeek :
    answer State.reset .wheel [0x22, 0x00] = some [0x03]
      ∧ (([0x00, 0xFB, 0x08, 0x01, 0xFF, 0x7F, 0x80] : List Byte).map fun off => answer (wheelAt 3) .wheel [0x22, off])
        = [some [0x00, 0x01], some [0x00, 0x01], some [0x00, 0x00], some [0x00, 0x00], some [0x00, 0x01],
          some [0x00, 0x01], some [0x00, 0x01]] := by decide +kernel

/-- Section 2.1, rows 2, 15, 17, 21 and 28. -/
theorem test_wstep :
    answer State.reset .wheel [0x23] = some [0x03] ∧ answer (wheelAt 3) .wheel [0x23] = some [0x00]
      ∧ wheelOf (wheelAt 3) [0x23] = some (wheelAt 4).wheel ∧ wheelOf (wheelAt 4) [0x23] = some (wheelAt 0).wheel
      ∧ wheelOf { State.reset with wheel := ⟨true, 1, 1, 0⟩ } [0x23] = some ⟨true, 1, 1, 0⟩
      ∧ wheelOf { State.reset with wheel := ⟨true, 32, 0xFFFFFFFF, 31⟩ } [0x23] = some ⟨true, 32, 0xFFFFFFFF, 0⟩ := by
  decide +kernel

/-- Section 2.6, rows 1 and 7: with and without the pre-step. -/
theorem test_char :
    (after (exec (.char (letter 'S')) (tkaAt ⟨0, 1, 2, 3, 0, 0⟩))).map (fun t => (t.micro, t.engine.pos))
        = some (some (letter 'P').val, ⟨2, 4, 5, 5, 2, 3⟩)
      ∧ (after (exec (.char (letter 'L')) (tkaAt ⟨15, 23, 1, 22, 18, 22⟩))).map (fun t => (t.micro, t.engine.pos))
        = some (some (letter 'P').val, ⟨16, 0, 3, 0, 20, 0⟩) := by decide +kernel

/-- Section 2.3, rows 2 and 6. -/
theorem test_stepall :
    (after (exec .stepall (tkaAt ⟨24, 24, 22, 22, 23, 23⟩))).map (·.engine.pos) = some ⟨0, 1, 0, 0, 1, 0⟩
      ∧ (after (exec .stepall (tkaAt ⟨4, 4, 4, 4, 4, 4⟩))).map (·.engine.pos) = some ⟨5, 5, 6, 5, 5, 6⟩ := by decide +kernel

/-- Section 2.3, rows 1 and 7. -/
theorem test_prestep :
    (after (exec .prestep (tkaAt ⟨0, 0, 0, 0, 0, 0⟩))).map (·.engine.pos) = some ⟨1, 2, 2, 2, 1, 2⟩
      ∧ (after (exec .prestep (tkaAt ⟨15, 23, 1, 22, 18, 22⟩))).map (·.engine.pos) = some ⟨15, 23, 1, 22, 18, 22⟩ := by
  decide +kernel

/-- Section 2.3, rows 3 and 7. -/
theorem test_poststep :
    (after (exec .poststep (tkaAt ⟨17, 17, 15, 15, 16, 16⟩))).map (·.engine.pos) = some ⟨18, 19, 17, 16, 17, 17⟩
      ∧ (after (exec .poststep (tkaAt ⟨15, 23, 1, 22, 18, 22⟩))).map (·.engine.pos) = some ⟨16, 0, 3, 0, 20, 0⟩ := by
  decide +kernel

/-- Section 2.4, rows 1 to 8: the digits of TKA. -/
theorem test_prn :
    ([⟨0, 0, 0, 0, 0, 0⟩, ⟨24, 24, 22, 22, 23, 23⟩, ⟨17, 17, 15, 15, 16, 16⟩, ⟨16, 16, 14, 14, 15, 15⟩,
        ⟨5, 5, 5, 5, 5, 5⟩, ⟨1, 3, 4, 4, 1, 2⟩, ⟨13, 20, 22, 19, 15, 20⟩, ⟨14, 21, 0, 20, 16, 21⟩].map fun p =>
          (after (exec .prn (tkaAt p))).bind (·.micro))
      = [some 6, some 18, some 22, some 13, some 14, some 12, some 10, some 15] := by decide +kernel

/-- Section 2.5: spot values, a wrap and a fixed point among them. -/
theorem test_sub :
    ([('A', 0), ('P', 0), ('P', 25), ('E', 1), ('E', 25), ('S', 12), ('K', 1), ('Z', 13)].map fun x =>
        (after (exec (.sub (letter x.1) x.2) State.reset)).bind (·.micro))
      = ['H', 'F', 'I', 'F', 'D', 'P', 'K', 'N'].map fun c => some (letter c).val := by decide +kernel

/-- R77: ENCAT is a REPOS and an ENC; after a refused REPOS nothing more is issued. -/
theorem test_encat :
    (after (execPseudo (.encat [24, 24, 22, 22, 23, 23] [0x41]) (tkaAt ⟨0, 1, 2, 3, 0, 0⟩))).map
        (fun t => (t.response, t.engine.pos)) = some (some ⟨.engine, [0x00, 0x01, 0x00, 0x4D]⟩, ⟨0, 1, 0, 0, 1, 0⟩)
      ∧ (after (execPseudo (.decat [24, 24, 23, 22, 23, 23] [0x41]) (tkaAt ⟨0, 1, 2, 3, 0, 0⟩))).map
        (fun t => (t.response, t.engine.pos)) = some (some ⟨.engine, [0x01]⟩, ⟨0, 1, 2, 3, 0, 0⟩) := by decide +kernel

/-- R76, R77 and section 2.1 row 7: text to frames; an operand that fits no octet assembles to nothing (log entry 11). -/
theorem test_assemble :
    assembleText "W.LOAD 10110@3".toList = some [[0x21, 0x05, 0x03, 0x0D, 0x00, 0x00, 0x00]]
      ∧ assembleText "DECAT 0, 1, 2, 3, 0, 0, \"AB\" ; back to the start".toList
        = some [[0x02, 0x06, 0x00, 0x01, 0x02, 0x03, 0x00, 0x00], [0x11, 0x02, 0x00, 0x41, 0x42]]
      ∧ assembleText "REPOS 0, 1".toList = some [[0x02, 0x02, 0x00, 0x01]] ∧ assembleText "LOADKEY".toList = some [[0x01, 0x00]]
      ∧ assembleText "W.PEEK 200".toList = none := by decide +kernel

/-- Section 3.2: a statement over two lines. A comment stands before, inside and after a statement and ends with its line; a
semicolon in a string starts none; a second statement is not dropped in silence, and a quote ends its string (log entries 12 and
13). ENCAT with fewer than six positions is read (log entry 14). -/
theorem test_assemble_layout :
    assembleText "; boot\nREPOS 0, 1, 2, ; first three\n  3, 0, 0 ; rest".toList
        = some [[0x02, 0x06, 0x00, 0x01, 0x02, 0x03, 0x00, 0x00]]
      ∧ assembleText "ENC \";\"".toList = some [[0x10, 0x01, 0x00, 0x3B]]
      ∧ assembleText "W.STEP ; one\nW.STEP".toList = none ∧ assembleText "ENC \"A\"B\"".toList = none
      ∧ assembleText "ENCAT 0, \"A\"".toList = some [[0x02, 0x01, 0x00], [0x10, 0x01, 0x00, 0x41]] := by decide +kernel

/-- R190: the reset input of the engine leaves the sequencer idle too; that of the Wheel unit is not the engine's. -/
theorem test_reset_input :
    (after (step { tkaAt ⟨0, 1, 2, 3, 0, 0⟩ with micro := some 12, inputs := [.reset .engine] })).map
        (fun t => (t.engine.keyed, t.micro, t.response)) = some (false, none, none)
      ∧ (after (step { wheelAt 3 with micro := some 12, inputs := [.reset .wheel] })).map
        (fun t => (t.wheel.loaded, t.micro, t.response)) = some (false, some 12, none) := by decide +kernel

/-! ### States and operands that meet the hypotheses of the statements

Each theorem is named after the statement it belongs to; where a statement has several clauses, each clause has its values. -/

/-- TKA at the positions where every wheel wraps. -/
def atTop : State := tkaAt ⟨24, 24, 22, 22, 23, 23⟩

/-- `ENC "A"`. -/
def encA : List Byte := [0x10, 0x01, 0x00, 0x41]

theorem keyLegal_tka : KeyLegal tkaRecords := by
  refine ⟨rfl, fun i r h => ?_⟩
  cases i <;> obtain rfl := Option.some.inj h <;> decide

theorem keyLegal_top :
    KeyLegal [⟨25, 24, 0⟩, ⟨25, 24, 0⟩, ⟨23, 22, 0⟩, ⟨23, 22, 0⟩, ⟨24, 23, 0⟩, ⟨24, 23, 0⟩] := by
  refine ⟨rfl, fun i r h => ?_⟩
  cases i <;> obtain rfl := Option.some.inj h <;> decide

theorem not_keyLegal_size : ¬KeyLegal (tkaRecords.set 2 ⟨23, 23, 0⟩) :=
  fun h => absurd (h.2 .w3 ⟨23, 23, 0⟩ rfl) (by decide)

theorem not_keyLegal_negative : ¬KeyLegal (tkaRecords.set 0 ⟨25, 0xFF, 0⟩) :=
  fun h => absurd (h.2 .w1 ⟨25, 0xFF, 0⟩ rfl) (by decide)

theorem positionsLegal_top : PositionsLegal [24, 24, 22, 22, 23, 23] := by
  refine ⟨rfl, fun i b h => ?_⟩
  cases i <;> obtain rfl := Option.some.inj h <;> decide

theorem not_positionsLegal_size : ¬PositionsLegal [24, 24, 22, 22, 23, 24] :=
  fun h => absurd (h.2 .w6 24 rfl) (by decide)

theorem witness_EveryStepKeepsTheStateLegal :
    Legal (given atTop .engine encA) ∧ ∃ t, step (given atTop .engine encA) = .next t ∧ t.engine.pos = ⟨0, 1, 0, 0, 1, 0⟩ :=
  ⟨by decide, _, rfl, by decide +kernel⟩

theorem witness_EveryFrameIsAnsweredWithItsStatusAndPayload :
    (given atTop .engine encA).inputs = [.frame .engine encA]
      ∧ answer atTop .engine encA = some [0x00, 0x01, 0x00, 0x4D] ∧ answer atTop .engine [0x12, 0x00, 0x00] = some [0x04]
      ∧ answer (wheelAt 3) .wheel [0x22, 0x00] = some [0x00, 0x01] := by decide +kernel

theorem witness_ResetInputClearsItsUnitOnly :
    ({ atTop with micro := some 3, inputs := [.reset .engine] } : State).inputs = .reset .engine :: []
      ∧ ({ wheelAt 4 with inputs := [.reset .wheel] } : State).inputs = .reset .wheel :: [] := ⟨rfl, rfl⟩

theorem witness_NothingHappensBetweenCommands : ({ atTop with response := some ⟨.engine, [0x00]⟩ } : State).inputs = [] := rfl

theorem witness_AStepRunsTheDecodedCommand :
    (given atTop .engine encA).inputs = [.frame .engine encA] ∧ decode .engine encA = .ok (.enc [0x41])
      ∧ (Instr.enc [0x41]).wellFormed = true := by decide +kernel

theorem witness_APortDecodesExactlyItsCommandFrames :
    isCommandFrame .engine encA = true ∧ isCommandFrame .wheel [0x23] = true ∧ isCommandFrame .wheel encA = false := by
  decide +kernel

theorem witness_AFrameThatIsNoCommandAnswersBadCommand :
    ∀ f ∈ [[], [0x12, 0x00, 0x00], [0x23], [0x10, 0x02, 0x00, 0x41], [0x10, 0x01], [0x01]],
      (given atTop .engine f).inputs = [.frame .engine f] ∧ isCommandFrame .engine f = false := by decide +kernel

theorem witness_DecodeOfEncodeIsTheCommand :
    (Instr.loadkey tkaRecords).wellFormed = true ∧ (Instr.loadkey tkaRecords).port = some .engine
      ∧ (encode (.loadkey tkaRecords)).map List.length = some 38
      ∧ (Instr.wPeek (-5)).wellFormed = true ∧ (Instr.wPeek (-5)).port = some .wheel
      ∧ encode (.wPeek (-5)) = some [0x22, 0xFB] := by decide +kernel

theorem witness_EncodeOfDecodeIsTheFrame :
    decode .engine encA = .ok (.enc [0x41]) ∧ decode .wheel [0x23] = .ok .wStep := by decide +kernel

theorem witness_SparePinBitsAreIgnored :
    (tkaRecords.length = (⟨25, 0, 0xFED8360D⟩ :: tkaRecords.tail).length
      ∧ ∀ (k : Nat) (r r' : KeyRecord), tkaRecords[k]? = some r → (⟨25, 0, 0xFED8360D⟩ :: tkaRecords.tail)[k]? = some r' →
        r.len = r'.len ∧ r.pos = r'.pos ∧ ∀ j, j < r.len.toNat → r.pins.getLsbD j = r'.pins.getLsbD j)
    ∧ ∀ j, j < (5 : Byte).toNat → (0x0D : BitVec 32).getLsbD j = (0xFFFFFFED : BitVec 32).getLsbD j := by
  refine ⟨⟨rfl, fun k r r' h h' => ?_⟩, by decide⟩
  cases k with
  | zero =>
    obtain rfl := Option.some.inj h
    obtain rfl := Option.some.inj h'
    exact ⟨rfl, rfl, by decide⟩
  | succ k =>
    have e : r = r' := Option.some.inj (h.symm.trans h')
    exact ⟨by rw [e], by rw [e], fun _ _ => by rw [e]⟩

/-- A legal size and position of a W.LOAD. -/
def wLoadLegal (len pos : Byte) : Bool :=
  decide (1 ≤ len.toNat) && decide (len.toNat ≤ 32) && decide (0 ≤ pos.toInt) && decide (pos.toInt < (len.toNat : Int))

theorem witness_WLoadReplacesTheWholeWheelOrNothing :
    (wLoadLegal 1 0 && wLoadLegal 32 0 && wLoadLegal 32 31 && wLoadLegal 5 4) = true
      ∧ (wLoadLegal 0 0 || wLoadLegal 33 0 || wLoadLegal 5 5 || wLoadLegal 5 0xFF || wLoadLegal 32 32) = false := by decide

theorem witness_WPeekAnswersThePinAtTheSignedOffset :
    (wheelAt 3).wheel.loaded = true ∧ State.reset.wheel.loaded = false := ⟨rfl, rfl⟩

theorem witness_WStepMovesTheWheelOnePlace :
    WheelLegal (wheelAt 4).wheel ∧ (wheelAt 4).wheel.loaded = true
      ∧ WheelLegal ⟨true, 32, 0xFFFFFFFF, 31⟩ ∧ WheelLegal State.reset.wheel ∧ State.reset.wheel.loaded = false := by decide

theorem witness_TheLawsOfAWheel :
    (wheelAt 4).wheel.loaded = true ∧ WheelLegal (wheelAt 4).wheel ∧ WheelLegal ⟨true, 1, 1, 0⟩ := by decide

theorem witness_AWheelIsPeriodicUnderWStepCommands :
    let s : State := { wheelAt 0 with inputs := List.replicate 5 (.frame .wheel [0x23]) }
    s.wheel.loaded = true ∧ WheelLegal s.wheel ∧ s.wheel.pos = 0
      ∧ s.inputs = List.replicate s.wheel.size.toNat (.frame .wheel [0x23]) ++ [] := by decide

theorem witness_LoadkeyWritesTheWholeKeyOrNothing :
    KeyLegal [⟨25, 24, 0⟩, ⟨25, 24, 0⟩, ⟨23, 22, 0⟩, ⟨23, 22, 0⟩, ⟨24, 23, 0⟩, ⟨24, 23, 0⟩]
      ∧ ¬KeyLegal (tkaRecords.set 2 ⟨23, 23, 0⟩) ∧ ¬KeyLegal (tkaRecords.set 0 ⟨25, 0xFF, 0⟩)
      ∧ tkaRecords[recordNo .w3]? = some ⟨23, 2, 0x00244912⟩ :=
  ⟨keyLegal_top, not_keyLegal_size, not_keyLegal_negative, rfl⟩

theorem witness_ReposSetsAllSixPositionsOrNone :
    atTop.engine.keyed = true ∧ PositionsLegal [24, 24, 22, 22, 23, 23] ∧ ¬PositionsLegal [24, 24, 22, 22, 23, 24]
      ∧ State.reset.engine.keyed = false :=
  ⟨rfl, positionsLegal_top, not_positionsLegal_size, rfl⟩

theorem witness_EncAndDecEncipherWithTheKeystreamOfTheKey :
    atTop.engine.keyed = true ∧ LettersOnly [0x41, 0x5A] ∧ LettersOnly [] ∧ ([0x41, 0x5A] : List Byte)[1]? = some 0x5A := by
  decide

theorem witness_AMessageWithABadCharacterStepsNoWheel :
    atTop.engine.keyed = true ∧ ¬LettersOnly [0x41, 0x42, 0x31] ∧ ¬LettersOnly [0x40] ∧ ¬LettersOnly [0x5B]
      ∧ LettersOnly [0x41] ∧ LettersOnly [0x5A] := by decide

theorem witness_ConsecutiveMessagesContinueTheKeystream :
    (tkaAt ⟨0, 1, 2, 3, 0, 0⟩).engine.keyed = true ∧ LettersOnly [0x53, 0x43, 0x48, 0x4C, 0x55]
      ∧ LettersOnly [0x45, 0x53, 0x53, 0x45, 0x4C] ∧ ¬LettersOnly [0x45, 0x20]
      ∧ (Instr.enc [0x41] = .enc [0x41] ∨ Instr.enc [0x41] = .dec [0x41])
      ∧ (Instr.dec [0x41] = .enc [0x41] ∨ Instr.dec [0x41] = .dec [0x41]) := by decide

/-- The second engine has another Wheel unit beside it. -/
theorem witness_DecFromTheSamePositionsUndoesEnc :
    let u : State := { wheelAt 3 with engine := atTop.engine }
    atTop.engine.keyed = true ∧ LettersOnly [0x41, 0x41, 0x41, 0x41] ∧ u.engine.keyed = true
      ∧ u.engine.pins = atTop.engine.pins ∧ u.engine.pos = atTop.engine.pos := by decide

theorem witness_AMessageOfNLettersStepsEachWheelNToFourNTimes :
    atTop.engine.keyed = true ∧ InRange atTop.engine.pos ∧ LettersOnly [0x41, 0x41, 0x41, 0x41]
      ∧ (Instr.dec [0x41, 0x41, 0x41, 0x41] = .enc [0x41, 0x41, 0x41, 0x41]
        ∨ Instr.dec [0x41, 0x41, 0x41, 0x41] = .dec [0x41, 0x41, 0x41, 0x41]) := by decide

/-- Section 2.9, the trace of row 18: the steps of each wheel in `ENC "AAAA"` under TKA. By hand: four post-steps and two
pre-steps, with the extra steps the trace names. -/
theorem test_message_steps :
    (WheelIx.all.map fun w => messageSteps tka ⟨24, 24, 22, 22, 23, 23⟩ w 4) = [6, 10, 9, 8, 7, 7] := by decide +kernel

theorem witness_PseudoInstructionsAreTheirExpansions :
    (atTop.engine.keyed = true ∧ PositionsLegal [24, 24, 22, 22, 23, 23])
      ∧ ¬(atTop.engine.keyed = true ∧ PositionsLegal [24, 24, 22, 22, 23, 24])
      ∧ ¬(State.reset.engine.keyed = true ∧ PositionsLegal [24, 24, 22, 22, 23, 23]) :=
  ⟨⟨rfl, positionsLegal_top⟩, fun h => not_positionsLegal_size h.2, fun h => absurd h.1 (by decide)⟩

theorem witness_CharStepsOnceOrTwiceFromTheOldPositions :
    pinAt (tkaAt ⟨0, 1, 2, 3, 0, 0⟩).engine.pins (tkaAt ⟨0, 1, 2, 3, 0, 0⟩).engine.pos .w6 (-5) = true
      ∧ pinAt atTop.engine.pins atTop.engine.pos .w6 (-5) = false := by decide +kernel

theorem witness_TheLettersDoNotSteerTheMachine :
    atTop.engine.pins = (given atTop .engine encA).engine.pins ∧ atTop.engine.pos = (given atTop .engine encA).engine.pos
      ∧ atTop.engine.keyed = true ∧ LettersOnly [0x53, 0x43] ∧ LettersOnly [0x41, 0x41]
      ∧ ([0x53, 0x43] : List Byte).length = ([0x41, 0x41] : List Byte).length := by decide

theorem witness_APassMovesEachWheelByItsLeftNeighboursPin :
    Instr.stepall = .stepall ∨ Instr.stepall = .poststep := Or.inl rfl

theorem witness_PrestepRunsAPassOnlyIfWheelSixAllows :
    pinAt tka ⟨0, 0, 0, 0, 0, 0⟩ .w6 (-5) = true ∧ pinAt tka ⟨24, 24, 22, 22, 23, 23⟩ .w6 (-5) = false := by decide +kernel

theorem witness_ExtremeKeysMoveTheWheelsByOneOrByTwoAndFour :
    (∀ (i : WheelIx) (j : Nat), j < i.size → PinRegs.reset.pin i j = false)
      ∧ ∀ (i : WheelIx) (j : Nat), j < i.size →
          (⟨0x1FFFFFF, 0x1FFFFFF, 0x7FFFFF, 0x7FFFFF, 0xFFFFFF, 0xFFFFFF⟩ : PinRegs).pin i j = true := by
  constructor <;> intro i <;> cases i <;> decide

theorem witness_InAPassAWheelIsMovedByItsLeftNeighbourOnly :
    let p : Positions := ⟨0, 1, 2, 3, 0, 0⟩
    let q : Positions := ⟨0, 1, 9, 9, 9, 9⟩
    WheelIx.w2.left = some .w1 ∧ p.get .w2 = q.get .w2 ∧ p.get .w1 = q.get .w1
      ∧ ∀ j, j < WheelIx.w1.size → tka.pin .w1 j = (⟨tka.k1, 0, 0, 0, 0, 0⟩ : PinRegs).pin .w1 j :=
  ⟨rfl, rfl, rfl, fun _ _ => rfl⟩

theorem witness_PeeksAtMinusFiveAndPlusEightWrapAround :
    (∀ p ∈ ([0, 4, 5, 16, 17, 24] : List (BitVec 5)), p.toNat < WheelIx.w1.size)
      ∧ ((⟨true, tka, ⟨4, 4, 4, 4, 4, 4⟩⟩ : Engine).pos.get .w1).toNat < WheelIx.w1.size := by decide

theorem witness_TheDigitIsZeroToTwentyFive : (0 : Nat) ≤ 25 ∧ (9 : Nat) ≤ 25 ∧ (10 : Nat) ≤ 25 ∧ (15 : Nat) ≤ 25 ∧ (16 : Nat) ≤ 25 ∧ (25 : Nat) ≤ 25 := by decide

/-- TKA with every pin complemented. -/
def tkaComplement : PinRegs := ⟨~~~tka.k1, ~~~tka.k2, ~~~tka.k3, ~~~tka.k4, ~~~tka.k5, ~~~tka.k6⟩

theorem witness_ComplementingAllSixPinsLeavesTheDigit :
    (∀ i : WheelIx, pinAt tkaComplement ⟨1, 3, 4, 4, 1, 2⟩ i 8 = !pinAt tka ⟨1, 3, 4, 4, 1, 2⟩ i 8)
      ∧ ∀ i : WheelIx, i ≠ .w6 →
          (pinAt tka ⟨8, 14, 14, 13, 10, 11⟩ i 8 = pinAt tka ⟨8, 14, 14, 13, 10, 11⟩ .w6 8
            ↔ pinAt tka ⟨3, 6, 7, 6, 3, 4⟩ i 8 = pinAt tka ⟨3, 6, 7, 6, 3, 4⟩ .w6 8) := by
  constructor <;> intro i <;> cases i <;> decide +kernel

theorem witness_SubFixesNoLetterOrTwo :
    (12 : Nat) ≤ 25 ∧ 12 % 2 = 0 ∧ (25 : Nat) ≤ 25 ∧ 25 % 2 = 1 ∧ (25, 'J', 'R') ∈ fixedLetters := by decide

theorem witness_InputAndOutputDetermineTheDigit :
    (12 : Nat) ≤ 25 ∧ exec (.sub (letter 'S') 12) State.reset = .next { State.reset with micro := some (letter 'P').val } :=
  ⟨by decide, rfl⟩

theorem witness_SubIsAReflectionOfTheInnerRing_and_ItsOwnInverse : (0 : Nat) ≤ 25 ∧ (25 : Nat) ≤ 25 := by decide

/-- A frame for each test of R167, and one that passes all. -/
theorem witness_TheStatusFollowsTheOrderOfTheTests :
    expectedStatus State.reset .engine [0x02, 0x06, 0x00, 0x01] = 0x04
      ∧ expectedStatus State.reset .engine [0x10, 0x01, 0x00, 0x61] = 0x03
      ∧ expectedStatus atTop .engine [0x10, 0x01, 0x00, 0x61] = 0x02
      ∧ expectedStatus atTop .engine [0x02, 0x06, 0x00, 0x01, 0x17, 0x03, 0x00, 0x00] = 0x01
      ∧ expectedStatus atTop .engine encA = 0x00
      ∧ (given atTop .engine encA).inputs = [.frame .engine encA] := by decide +kernel

theorem witness_AUnitWithoutAKeyRefusesAllButLoading :
    (given State.reset .engine encA).inputs = [.frame .engine encA] ∧ isCommandFrame .engine encA = true
      ∧ needsKey encA = true ∧ holdsKey (given State.reset .engine encA) .engine = false
      ∧ isCommandFrame .wheel [0x22, 0x00] = true ∧ needsKey [0x22, 0x00] = true
      ∧ holdsKey State.reset .wheel = false := by decide +kernel

/-- A message with a bad character, then a good one. -/
def badThenGood : State := { atTop with inputs := [.frame .engine [0x10, 0x01, 0x00, 0x31], .frame .engine encA] }

theorem witness_AFaultChangesNoState :
    badThenGood.inputs = [.frame .engine [0x10, 0x01, 0x00, 0x31], .frame .engine encA]
      ∧ ∃ t, step badThenGood = .next t ∧ t.response = some ⟨.engine, (0x02 : Byte) :: []⟩ ∧ (0x02 : Byte) ≠ 0x00 :=
  ⟨rfl, _, rfl, by decide +kernel, by decide⟩

theorem witness_AfterAFaultTheNextInputActsAsIfItHadNotBeen :
    ∃ t, badThenGood.inputs = .frame .engine [0x10, 0x01, 0x00, 0x31] :: .frame .engine encA :: []
      ∧ step badThenGood = .next t ∧ t.response = some ⟨.engine, (0x02 : Byte) :: []⟩ ∧ (0x02 : Byte) ≠ 0x00 :=
  ⟨_, rfl, rfl, by decide +kernel, by decide⟩

theorem witness_ARefusedLoadkeyLeavesTheEngineUnkeyed :
    (given State.reset .engine encA).engine.keyed = false ∧ ¬KeyLegal (tkaRecords.set 2 ⟨23, 23, 0⟩)
      ∧ (given State.reset .engine encA).inputs = [.frame .engine encA] ∧ isCommandFrame .engine encA = true
      ∧ encA.head? ≠ some 0x01 :=
  ⟨rfl, not_keyLegal_size, rfl, by decide +kernel, by decide⟩

/-- The frame of program P1 step 2. -/
def loadTka : List Byte := (encode (.loadkey tkaRecords)).getD []

theorem witness_OnlyLoadkeyAndResetChangeTheFlagOrThePins :
    (∃ t, step (given State.reset .engine loadTka) = .next t ∧ t.engine.keyed ≠ State.reset.engine.keyed)
      ∧ ∃ t, step { atTop with inputs := [.reset .engine] } = .next t ∧ t.engine.pins ≠ atTop.engine.pins :=
  ⟨⟨_, rfl, by decide +kernel⟩, ⟨_, rfl, by decide +kernel⟩⟩

theorem witness_TheEngineAndTheWheelUnitShareNothing :
    (Input.frame .engine encA = .reset .engine ∨ ∃ octets, Input.frame .engine encA = .frame .engine octets)
      ∧ (Input.reset .wheel = .reset .wheel ∨ ∃ octets, Input.reset .wheel = .frame .wheel octets)
      ∧ (Input.frame .wheel [0x23] = .reset .wheel ∨ ∃ octets, Input.frame .wheel [0x23] = .frame .wheel octets) :=
  ⟨.inr ⟨_, rfl⟩, .inl rfl, .inr ⟨_, rfl⟩⟩

/-- The state after reset with other values in the registers that hold none. -/
def otherReset : State :=
  { State.reset with engine := ⟨false, tka, ⟨1, 2, 3, 4, 5, 6⟩⟩, wheel := ⟨false, 9, 0x1FF, 7⟩ }

theorem witness_RegistersWithoutAValueAreNeverSeen :
    AgreeWhereKeyed (given State.reset .engine encA) (given otherReset .engine encA)
      ∧ (∃ t, step (given State.reset .engine encA) = .next t) ∧ ∃ t, step (given otherReset .engine encA) = .next t :=
  ⟨⟨rfl, fun h => absurd h (by decide), rfl, fun h => absurd h (by decide), rfl, rfl, rfl⟩, ⟨_, rfl⟩, ⟨_, rfl⟩⟩

theorem witness_EqualKeysAndInputsGiveEqualObservations : AgreeWhereKeyed State.reset otherReset :=
  ⟨rfl, fun h => absurd h (by decide), rfl, fun h => absurd h (by decide), rfl, rfl, rfl⟩

theorem witness_EngineCommandsLeaveTheRestUnchanged :
    (∃ t, exec (.loadkey tkaRecords) (wheelAt 3) = .next t ∧ t.engine.keyed = true)
      ∧ ∃ t, exec (.dec [0x41]) atTop = .next t ∧ t.engine.pos = ⟨0, 1, 0, 0, 1, 0⟩ :=
  ⟨⟨_, rfl, rfl⟩, ⟨_, rfl, by decide +kernel⟩⟩

theorem witness_WheelCommandsLeaveTheRestUnchanged :
    (∃ t, exec (.wLoad 32 31 0xFFFFFFFF) atTop = .next t ∧ t.wheel.loaded = true) ∧ (∃ t, exec (.wPeek 0) (wheelAt 3) = .next t)
      ∧ ∃ t, exec .wStep (wheelAt 4) = .next t ∧ t.wheel.pos = 0 :=
  ⟨⟨_, rfl, rfl⟩, ⟨_, rfl⟩, ⟨_, rfl, by decide +kernel⟩⟩

theorem witness_MicroOperationsLeaveTheRestUnchanged :
    Instr.port (.char (letter 'A')) = none ∧ Instr.port .prn = none ∧ (∃ t, exec (.char (letter 'A')) atTop = .next t)
      ∧ ∃ t, exec .prn atTop = .next t ∧ t.micro = some 18 :=
  ⟨rfl, rfl, ⟨_, rfl⟩, ⟨_, rfl, by decide +kernel⟩⟩
theorem witness_TheStatusOutputsShowTheFlagAndThePositions :
    atTop.engine.keyed = true ∧ atTop.posOut .w3 = some 22 ∧ State.reset.keyedOut = false := by decide

theorem witness_TheStatusOutputsFollowTheCommands :
    KeyLegal tkaRecords ∧ tkaRecords[recordNo .w4]? = some ⟨23, 3, 0x000380E0⟩ ∧ atTop.engine.keyed = true
      ∧ PositionsLegal [24, 24, 22, 22, 23, 23] ∧ LettersOnly [0x41] ∧ ¬LettersOnly [0x41, 0x42, 0x31] :=
  ⟨keyLegal_tka, rfl, rfl, positionsLegal_top, by decide, by decide⟩

end Sys2Proof.Tests
end

section
/-! SUPPORT. The operands and the outcome of REPOS, said once (R63, R108), and the two statements of the family 30_encoding.md:
the pseudo-instructions (R77) and the worked texts (R78). -/

namespace Sys2Proof.Machine

open Sys2Proof.Safety

/-! ### The position operands of REPOS -/

/-- The signed reading of R11 is the two's complement value of the octet. -/
theorem sext8_eq_toInt (v : Byte) : sext8 v = v.toInt := by
  rw [sext8, BitVec.toInt_eq_toNat_cond]
  split <;> split <;> omega

theorem posLegal_iff (size : Nat) (pos : Byte) :
    posLegal size pos = true ↔ 0 ≤ pos.toInt ∧ pos.toInt < (size : Int) := by
  simp only [posLegal, sext8_eq_toInt, Bool.and_eq_true, decide_eq_true_eq]

/-- Record r of R66 and R67 is the operand of wheel r+1. -/
theorem positionsLegal_six_iff (b1 b2 b3 b4 b5 b6 : Byte) :
    PositionsLegal [b1, b2, b3, b4, b5, b6] ↔
      posLegal WheelIx.w1.size b1 = true ∧ posLegal WheelIx.w2.size b2 = true ∧ posLegal WheelIx.w3.size b3 = true
        ∧ posLegal WheelIx.w4.size b4 = true ∧ posLegal WheelIx.w5.size b5 = true
        ∧ posLegal WheelIx.w6.size b6 = true := by
  simp only [posLegal_iff]
  constructor
  · rintro ⟨-, h⟩
    exact ⟨h .w1 b1 rfl, h .w2 b2 rfl, h .w3 b3 rfl, h .w4 b4 rfl, h .w5 b5 rfl, h .w6 b6 rfl⟩
  · rintro ⟨h1, h2, h3, h4, h5, h6⟩
    refine ⟨rfl, fun i b hb => ?_⟩
    cases i <;> cases hb <;> assumption

theorem positionsOf_eq_none_of_length_ne {ps : List Byte} (h : ps.length ≠ 6) : positionsOf ps = none := by
  unfold positionsOf
  split
  · exact absurd rfl h
  · rfl

/-- REPOS finds six positions in its operands exactly when they are legal (R108). -/
theorem positionsOf_isSome_iff (ps : List Byte) : (positionsOf ps).isSome = true ↔ PositionsLegal ps := by
  by_cases hl : ps.length = 6
  · match ps, hl with
    | [b1, b2, b3, b4, b5, b6], _ =>
      simp [positionsOf, positionsLegal_six_iff, and_assoc]
  · simp [positionsOf_eq_none_of_length_ne hl, PositionsLegal, hl]

/-! ### The outcome of REPOS -/

theorem exec_repos_of_unkeyed {s : State} (ps : List Byte) (h : s.engine.keyed = false) :
    exec (.repos ps) s = .next (s.raise .engine .notKeyed) :=
  congrArg _ (State.whenKeyed_of_unkeyed _ h)

theorem exec_repos_of_legal {s : State} {ps : List Byte} (hk : s.engine.keyed = true) (hp : PositionsLegal ps) :
    ∃ pos, positionsOf ps = some pos
      ∧ exec (.repos ps) s = .next ((s.withEngine { s.engine with pos := pos }).respondOk .engine []) := by
  obtain ⟨pos, hpos⟩ := Option.isSome_iff_exists.mp ((positionsOf_isSome_iff ps).mpr hp)
  refine ⟨pos, hpos, ?_⟩
  simp only [exec, execRepos, hpos, State.whenKeyed_of_keyed _ hk]

theorem exec_repos_of_illegal {s : State} {ps : List Byte} (hk : s.engine.keyed = true) (hp : ¬PositionsLegal ps) :
    exec (.repos ps) s = .next (s.raise .engine .invalidArgument) := by
  have hnone : positionsOf ps = none := by simpa [← positionsOf_isSome_iff] using hp
  simp only [exec, execRepos, hnone, State.whenKeyed_of_keyed _ hk]

/-- A REPOS answers OK exactly on a keyed engine with legal positions: each of its refusals has a status octet of its own. -/
theorem exec_repos_answersOk_iff (ps : List Byte) (s : State) :
    ∃ t, exec (.repos ps) s = .next t
      ∧ (t.response = some ⟨.engine, [statusOk]⟩ ↔ s.engine.keyed = true ∧ PositionsLegal ps) := by
  cases hk : s.engine.keyed with
  | false => exact ⟨_, exec_repos_of_unkeyed ps hk, by simp [FaultKind.code, statusOk]⟩
  | true =>
    by_cases hp : PositionsLegal ps
    · obtain ⟨pos, -, hexec⟩ := exec_repos_of_legal hk hp
      exact ⟨_, hexec, by simp [hp, statusOk]⟩
    · exact ⟨_, exec_repos_of_illegal hk hp, by simp [hp, FaultKind.code, statusOk]⟩

/-! ### The pseudo-instructions -/

theorem ifAnsweredOk_of_ok {first : Host.Outcome State Fault Refusal} {t : State} (hfirst : first = .next t)
    (h : t.response = some ⟨.engine, [statusOk]⟩) (second : State → Host.Outcome State Fault Refusal) :
    ifAnsweredOk first second = second t := by
  simp only [ifAnsweredOk, hfirst, h, if_true]

theorem ifAnsweredOk_of_not_ok {first : Host.Outcome State Fault Refusal} {t : State} (hfirst : first = .next t)
    (h : t.response ≠ some ⟨.engine, [statusOk]⟩) (second : State → Host.Outcome State Fault Refusal) :
    ifAnsweredOk first second = .next t := by
  simp only [ifAnsweredOk, hfirst, h, if_false]

/-- Settles O28: the guard of the second command is the condition under which REPOS answers OK. -/
theorem pseudoInstructionsAreTheirExpansions : Obligations.PseudoInstructionsAreTheirExpansions := by
  intro ps cs s
  obtain ⟨t, hexec, hok⟩ := exec_repos_answersOk_iff ps s
  refine ⟨rfl, t, hexec, fun h => ?_, fun h => ?_⟩
  · have hresp := hok.mpr h
    exact ⟨ifAnsweredOk_of_ok hexec hresp (execEnc cs), ifAnsweredOk_of_ok hexec hresp (execDec cs)⟩
  · have hresp := mt hok.mp h
    exact ⟨ifAnsweredOk_of_not_ok hexec hresp (execEnc cs), ifAnsweredOk_of_not_ok hexec hresp (execDec cs)⟩

/-! ### The worked texts -/

/-- Position -1 is out of range for wheel 6 (R78). -/
theorem not_positionsLegal_negative : ¬PositionsLegal [0x00, 0x01, 0x02, 0x03, 0x00, 0xFF] :=
  fun ⟨_, h⟩ => absurd (h .w6 0xFF rfl) (by decide)

/-- Settles O12: each text is assembled by evaluation; the refusal, in every keyed state, is that of illegal positions. -/
theorem theWorkedTextsAssembleToTheWorkedOctets : Obligations.TheWorkedTextsAssembleToTheWorkedOctets := by
  refine ⟨by decide +kernel, by decide +kernel, fun s => ?refused, by decide +kernel⟩
  case refused => exact exec_repos_of_illegal rfl not_positionsLegal_negative

end Sys2Proof.Machine
end

section
/-! SUPPORT. The stand-alone Wheel unit said once: its step and its peek (R92, R93), the outcome of each command of the wheel
port, runs of W.STEP commands, and the statements of the family 40_wheel.md. -/

namespace Sys2Proof.Machine

open Sys2Proof.Safety

/-! ### The wheel under peek and step -/

theorem pinIndex_natCast (size pos off : Nat) : pinIndex size pos off = (pos + off) % size := by
  rw [pinIndex, ← Nat.cast_add, ← Int.natCast_emod, Int.toNat_natCast]

@[simp] theorem WheelUnit.step_loaded (w : WheelUnit) : w.step.loaded = w.loaded := rfl

@[simp] theorem WheelUnit.step_size (w : WheelUnit) : w.step.size = w.size := rfl

@[simp] theorem WheelUnit.step_pins (w : WheelUnit) : w.step.pins = w.pins := rfl

/-- A position below a size of at most 32 fits its five bits. -/
theorem WheelUnit.step_pos_toNat {w : WheelUnit} (hpos : 0 < w.size.toNat) (hle : w.size.toNat ≤ 32) :
    w.step.pos.toNat = (w.pos.toNat + 1) % w.size.toNat := by
  have hlt : (w.pos.toNat + 1) % w.size.toNat < 2 ^ 5 := (Nat.mod_lt _ hpos).trans_le hle
  simp only [WheelUnit.step, nextPos, BitVec.toNat_ofNat, Nat.mod_eq_of_lt hlt]

/-- A step moves the wheel under the peek by one place (R94). -/
theorem WheelUnit.step_peek {w : WheelUnit} (hpos : 0 < w.size.toNat) (hle : w.size.toNat ≤ 32) (off : Int) :
    w.step.peek off = w.peek (off + 1) := by
  simp only [WheelUnit.peek, pinIndex, WheelUnit.step_pos_toNat hpos hle, WheelUnit.step_size, WheelUnit.step_pins,
    Int.natCast_emod, Int.emod_add_emod, Nat.cast_add, Nat.cast_one]
  rw [add_assoc, add_comm 1 off]

/-- Offsets count modulo the size (R94). -/
theorem WheelUnit.peek_add_size (w : WheelUnit) (off : Int) : w.peek (off + (w.size.toNat : Int)) = w.peek off := by
  simp only [WheelUnit.peek, pinIndex, ← add_assoc, Int.add_emod_right]

theorem WheelUnit.iterate_step_peek {w : WheelUnit} (hpos : 0 < w.size.toNat) (hle : w.size.toNat ≤ 32) (k : Nat)
    (off : Int) : (WheelUnit.step^[k] w).peek off = w.peek (off + k) := by
  induction k generalizing w with
  | zero => simp
  | succ k ih =>
    calc (WheelUnit.step^[k] w.step).peek off
        = w.step.peek (off + k) := ih hpos hle
      _ = w.peek (off + k + 1) := WheelUnit.step_peek hpos hle _
      _ = w.peek (off + (k + 1 : Nat)) := by rw [add_assoc, Nat.cast_add_one]

/-- k steps write the position only (R93, R94). -/
theorem WheelUnit.iterate_step {w : WheelUnit} (hlt : w.pos.toNat < w.size.toNat) (hle : w.size.toNat ≤ 32) (k : Nat) :
    ∃ p : BitVec 5, p.toNat = (w.pos.toNat + k) % w.size.toNat ∧ WheelUnit.step^[k] w = { w with pos := p } := by
  induction k with
  | zero => exact ⟨w.pos, (Nat.mod_eq_of_lt hlt).symm, rfl⟩
  | succ k ih =>
    obtain ⟨p, hp, hw⟩ := ih
    refine ⟨({ w with pos := p } : WheelUnit).step.pos, ?_, ?_⟩
    · rw [WheelUnit.step_pos_toNat (w := { w with pos := p }) (Nat.zero_lt_of_lt hlt) hle]
      simp only [hp, Nat.mod_add_mod, add_assoc]
    · rw [Function.iterate_succ_apply', hw]
      rfl

/-- As many steps as the wheel has pins restore it (R94). -/
theorem WheelUnit.iterate_step_size {w : WheelUnit} (hlt : w.pos.toNat < w.size.toNat) (hle : w.size.toNat ≤ 32) :
    WheelUnit.step^[w.size.toNat] w = w := by
  obtain ⟨p, hp, hw⟩ := WheelUnit.iterate_step hlt hle w.size.toNat
  have hpw : p = w.pos := BitVec.eq_of_toNat_eq (by rw [hp, Nat.add_mod_right, Nat.mod_eq_of_lt hlt])
  rw [hw, hpw]

/-- Settles O18: each law is one of the wheel's lemmas. -/
theorem theLawsOfAWheel : Obligations.TheLawsOfAWheel := by
  intro w hloaded hlegal
  obtain ⟨hpos, hle, hlt, -⟩ := hlegal hloaded
  refine ⟨WheelUnit.step_peek hpos hle, w.peek_add_size, WheelUnit.iterate_step_size hlt hle, fun k => ?_⟩
  obtain ⟨p, hp, hw⟩ := WheelUnit.iterate_step hlt hle k
  rw [hw, hp]

/-! ### W.LOAD -/

theorem getLsbD_pinsBelow (size : Nat) (v : BitVec 32) (j : Nat) :
    (pinsBelow size v).getLsbD j = (decide (j < size) && v.getLsbD j) := by
  by_cases hj : j < 32
  · simp only [pinsBelow, BitVec.getLsbD_and, BitVec.getLsbD_ofNat, Nat.testBit_two_pow_sub_one, hj, decide_true,
      Bool.true_and, Bool.and_comm]
  · simp [BitVec.getLsbD_of_ge, Nat.le_of_not_lt hj]

/-- A position 0..31 fits its register (R21). -/
theorem posValue_toNat {pos : Byte} (h0 : 0 ≤ pos.toInt) (h32 : pos.toInt < 32) :
    ((posValue pos).toNat : Int) = pos.toInt := by
  have hnat := BitVec.toInt_eq_toNat_cond pos
  simp only [posValue, BitVec.toNat_setWidth]
  omega

/-- The wheel a legal W.LOAD leaves (R91). -/
def wheelOfLoad (len pos : Byte) (v : BitVec 32) : WheelUnit :=
  ⟨true, len.setWidth 6, pinsBelow len.toNat v, posValue pos⟩

/-- W.LOAD tests its two arguments once and then writes all or nothing (R91). -/
theorem exec_wLoad (len pos : Byte) (v : BitVec 32) (s : State) :
    exec (.wLoad len pos v) s = .next
      (if 1 ≤ len.toNat ∧ len.toNat ≤ 32 ∧ 0 ≤ pos.toInt ∧ pos.toInt < (len.toNat : Int) then
        (s.withWheel (wheelOfLoad len pos v)).respondOk .wheel []
      else s.raise .wheel .invalidArgument) := by
  simp only [exec, execWLoad, posLegal_iff, Config.wheelCap]
  by_cases hlen : len.toNat = 0 ∨ 32 < len.toNat
  · rw [if_pos hlen, if_neg (by omega)]
  · have hbounds : 1 ≤ len.toNat ∧ len.toNat ≤ 32 := by omega
    simp only [hlen, hbounds, true_and, if_false]
    split <;> rfl

/-- Settles O15: the two clauses are the two branches of `exec_wLoad`. -/
theorem wLoadReplacesTheWholeWheelOrNothing : Obligations.WLoadReplacesTheWholeWheelOrNothing := by
  intro len pos v s
  refine ⟨rfl, fun hlegal => ⟨wheelOfLoad len pos v, ?outcome, rfl, ?size, ?pos, ?pins⟩, fun hillegal => ?refused⟩
  case outcome => rw [exec_wLoad, if_pos hlegal]; rfl
  case size => simp only [wheelOfLoad, BitVec.toNat_setWidth]; omega
  case pos =>
    obtain ⟨-, hle, h0, hlt⟩ := hlegal
    exact posValue_toNat h0 (by omega)
  case pins => exact getLsbD_pinsBelow len.toNat v
  case refused => rw [exec_wLoad, if_neg hillegal]; rfl

/-! ### W.PEEK and W.STEP -/

theorem exec_wPeek_of_loaded {s : State} (off : Byte) (h : s.wheel.loaded = true) :
    exec (.wPeek off) s = .next (s.respondOk .wheel [pinOctet (s.wheel.peek off.toInt)]) := by
  simp only [exec, execWPeek, State.whenLoaded_of_loaded _ h, sext8_eq_toInt]

theorem exec_wPeek_of_unloaded {s : State} (off : Byte) (h : s.wheel.loaded = false) :
    exec (.wPeek off) s = .next (s.raise .wheel .notKeyed) :=
  congrArg _ (State.whenLoaded_of_unloaded _ h)

theorem exec_wStep_of_loaded {s : State} (h : s.wheel.loaded = true) :
    exec .wStep s = .next ((s.withWheel s.wheel.step).respondOk .wheel []) :=
  congrArg _ (State.whenLoaded_of_loaded _ h)

theorem exec_wStep_of_unloaded {s : State} (h : s.wheel.loaded = false) :
    exec .wStep s = .next (s.raise .wheel .notKeyed) :=
  congrArg _ (State.whenLoaded_of_unloaded _ h)

/-- Settles O16: the answer is the unit's `peek` at the two's complement value of the offset octet. -/
theorem wPeekAnswersThePinAtTheSignedOffset : Obligations.WPeekAnswersThePinAtTheSignedOffset :=
  fun off _ => ⟨rfl, exec_wPeek_of_loaded off, exec_wPeek_of_unloaded off⟩

/-- Settles O17: a loaded unit takes the unit's `step`, whose position is below a legal size. -/
theorem wStepMovesTheWheelOnePlace : Obligations.WStepMovesTheWheelOnePlace := by
  intro s hlegal
  refine ⟨rfl, fun hloaded => ?_, exec_wStep_of_unloaded⟩
  obtain ⟨hpos, hle, -⟩ := hlegal hloaded
  exact ⟨s.wheel.step.pos, WheelUnit.step_pos_toNat hpos hle, exec_wStep_of_loaded hloaded⟩

/-! ### Runs of W.STEP commands -/

theorem step_wStep_of_loaded {s : State} {rest : List Input} (hloaded : s.wheel.loaded = true)
    (hinputs : s.inputs = .frame .wheel [0x23] :: rest) :
    step s = .next (((s.withInputs rest).withWheel s.wheel.step).respondOk .wheel []) := by
  have hdecode : decode .wheel [0x23] = .ok .wStep := rfl
  exact (step_command hinputs hdecode).trans (exec_wStep_of_loaded hloaded)

/-- k W.STEP commands step a loaded unit k times and are used up. -/
theorem run_wSteps {s : State} {k : Nat} {rest : List Input} (hloaded : s.wheel.loaded = true)
    (hinputs : s.inputs = List.replicate k (.frame .wheel [0x23]) ++ rest) :
    ∃ t : State, Host.Core.run core k s = .next t ∧ t.wheel = WheelUnit.step^[k] s.wheel ∧ t.inputs = rest := by
  induction k generalizing s with
  | zero => exact ⟨s, rfl, rfl, hinputs⟩
  | succ k ih =>
    have hstep : core.step s = _ := step_wStep_of_loaded hloaded hinputs
    simp only [Host.Core.run, hstep]
    exact ih (s.wheel.step_loaded.trans hloaded) rfl

/-- Before step k of a run from position 0, a peek reads pin `(k + off) mod N` (R95). -/
theorem run_wSteps_peek {s : State} {k : Nat} {rest : List Input} (hloaded : s.wheel.loaded = true)
    (hlegal : WheelLegal s.wheel) (hzero : s.wheel.pos = 0)
    (hinputs : s.inputs = List.replicate k (.frame .wheel [0x23]) ++ rest) :
    ∃ t : State, Host.Core.run core k s = .next t
      ∧ ∀ off : Int, t.wheel.peek off = s.wheel.pins.getLsbD (pinIndex s.wheel.size.toNat k off) := by
  obtain ⟨hpos, hle, -⟩ := hlegal hloaded
  obtain ⟨t, hrun, hwheel, -⟩ := run_wSteps hloaded hinputs
  refine ⟨t, hrun, fun off => ?_⟩
  rw [hwheel, WheelUnit.iterate_step_peek hpos hle]
  simp [WheelUnit.peek, pinIndex, hzero, add_comm]

/-- Settles O19: the whole run is N steps of the unit; a run of k of them reads the pins k places on. -/
theorem aWheelIsPeriodicUnderWStepCommands : Obligations.AWheelIsPeriodicUnderWStepCommands := by
  intro s rest hloaded hlegal hzero hinputs
  obtain ⟨-, hle, hlt, -⟩ := hlegal hloaded
  refine ⟨?whole, fun k hk => ?before⟩
  case whole =>
    obtain ⟨t, hrun, hwheel, hrest⟩ := run_wSteps hloaded hinputs
    exact ⟨t, hrun, hwheel.trans (WheelUnit.iterate_step_size hlt hle), hrest⟩
  case before =>
    have hsplit : s.inputs = List.replicate k (.frame .wheel [0x23])
        ++ (List.replicate (s.wheel.size.toNat - k) (.frame .wheel [0x23]) ++ rest) := by
      rw [hinputs, ← List.append_assoc, List.replicate_append_replicate, Nat.add_sub_cancel' hk.le]
    obtain ⟨t, hrun, hpeek⟩ := run_wSteps_peek hloaded hlegal hzero hsplit
    have hindex0 : pinIndex s.wheel.size.toNat k 0 = k := (pinIndex_natCast _ k 0).trans (Nat.mod_eq_of_lt hk)
    have hindex8 : pinIndex s.wheel.size.toNat k 8 = (k + 8) % s.wheel.size.toNat := pinIndex_natCast _ k 8
    exact ⟨t, hrun, by rw [hpeek, hindex0], by rw [hpeek, hindex8], hpeek (-5)⟩

end Sys2Proof.Machine
end

section
/-! SUPPORT. The commands of the engine port said once: the records LOADKEY takes (R100), the positions REPOS takes (R108),
the answer and the engine of a message (R104), SUB as a reflection (R152), and the statements of the family
41_engine_commands.md. -/

namespace Sys2Proof.Machine

open Sys2Proof.Safety

/-! ### LOADKEY -/

/-- A rule about record r for wheel r+1 (R66) holds of six records when it holds of each. -/
theorem forall_record_six_iff {α : Type} {P : WheelIx → α → Prop} (a1 a2 a3 a4 a5 a6 : α) :
    (∀ (i : WheelIx) (a : α), [a1, a2, a3, a4, a5, a6][recordNo i]? = some a → P i a) ↔
      P .w1 a1 ∧ P .w2 a2 ∧ P .w3 a3 ∧ P .w4 a4 ∧ P .w5 a5 ∧ P .w6 a6 := by
  constructor
  · intro h
    exact ⟨h .w1 a1 rfl, h .w2 a2 rfl, h .w3 a3 rfl, h .w4 a4 rfl, h .w5 a5 rfl, h .w6 a6 rfl⟩
  · rintro ⟨h1, h2, h3, h4, h5, h6⟩ i a ha
    cases i <;> cases ha <;> assumption

theorem recordLegal_iff (i : WheelIx) (r : KeyRecord) :
    recordLegal i r = true ↔ r.len.toNat = i.size ∧ 0 ≤ r.pos.toInt ∧ r.pos.toInt < (i.size : Int) := by
  simp only [recordLegal, posLegal_iff, Bool.and_eq_true, decide_eq_true_eq]

theorem keyOf_eq_none_of_length_ne {recs : List KeyRecord} (h : recs.length ≠ 6) : keyOf recs = none := by
  unfold keyOf
  split
  · exact absurd rfl h
  · rfl

/-- LOADKEY finds a key in its records exactly when they are legal (R100). -/
theorem keyOf_isSome_iff (recs : List KeyRecord) : (keyOf recs).isSome = true ↔ KeyLegal recs := by
  by_cases hl : recs.length = 6
  · match recs, hl with
    | [r1, r2, r3, r4, r5, r6], hl =>
      simp only [KeyLegal, hl, true_and, forall_record_six_iff, ← recordLegal_iff]
      simp [keyOf, and_assoc]
  · simp [keyOf_eq_none_of_length_ne hl, KeyLegal, hl]

/-- A key comes from six records, taken as they stand. -/
theorem eq_keyedEngine_of_keyOf {recs : List KeyRecord} {e : Engine} (h : keyOf recs = some e) :
    ∃ r1 r2 r3 r4 r5 r6, recs = [r1, r2, r3, r4, r5, r6] ∧ e = keyedEngine r1 r2 r3 r4 r5 r6 := by
  unfold keyOf at h
  split at h
  · split at h
    · exact ⟨_, _, _, _, _, _, rfl, (Option.some.inj h).symm⟩
    · cases h
  · cases h

theorem keyed_of_keyOf {recs : List KeyRecord} {e : Engine} (h : keyOf recs = some e) : e.keyed = true := by
  obtain ⟨r1, r2, r3, r4, r5, r6, -, rfl⟩ := eq_keyedEngine_of_keyOf h
  rfl

theorem get_of_keyOf {recs : List KeyRecord} {e : Engine} (h : keyOf recs = some e) {i : WheelIx} {r : KeyRecord}
    (hr : recs[recordNo i]? = some r) : e.pos.get i = posValue r.pos := by
  obtain ⟨r1, r2, r3, r4, r5, r6, rfl, rfl⟩ := eq_keyedEngine_of_keyOf h
  cases i <;> cases hr <;> rfl

theorem getLsbD_setWidth_of_lt {w n : Nat} (v : BitVec w) {j : Nat} (hj : j < n) :
    (v.setWidth n).getLsbD j = v.getLsbD j := by
  simp [hj]

/-- Pin j of wheel i is bit j of its record (R100). -/
theorem pin_of_keyOf {recs : List KeyRecord} {e : Engine} (h : keyOf recs = some e) {i : WheelIx} {r : KeyRecord}
    (hr : recs[recordNo i]? = some r) {j : Nat} (hj : j < i.size) : e.pins.pin i j = r.pins.getLsbD j := by
  obtain ⟨r1, r2, r3, r4, r5, r6, rfl, rfl⟩ := eq_keyedEngine_of_keyOf h
  cases i <;> cases hr <;> exact getLsbD_setWidth_of_lt _ hj

theorem exec_loadkey_of_legal {recs : List KeyRecord} (h : KeyLegal recs) (s : State) :
    ∃ e, keyOf recs = some e ∧ exec (.loadkey recs) s = .next ((s.withEngine e).respondOk .engine []) := by
  obtain ⟨e, he⟩ := Option.isSome_iff_exists.mp ((keyOf_isSome_iff recs).mpr h)
  exact ⟨e, he, by simp only [exec, execLoadkey, he]⟩

theorem exec_loadkey_of_illegal {recs : List KeyRecord} (h : ¬KeyLegal recs) (s : State) :
    exec (.loadkey recs) s = .next (s.raise .engine .invalidArgument) := by
  have hnone : keyOf recs = none := by simpa [← keyOf_isSome_iff] using h
  simp only [exec, execLoadkey, hnone]

/-- A position octet in range for a wheel keeps its value in the wheel's register (R21). -/
theorem posValue_toNat_of_lt_size {i : WheelIx} {pos : Byte} (h0 : 0 ≤ pos.toInt) (hlt : pos.toInt < (i.size : Int)) :
    ((posValue pos).toNat : Int) = pos.toInt :=
  posValue_toNat h0 (by have := i.size_le; omega)

/-- Settles O20: a legal list of records is a key, whose registers are those of the records. -/
theorem loadkeyWritesTheWholeKeyOrNothing : Obligations.LoadkeyWritesTheWholeKeyOrNothing := by
  refine fun recs s => ⟨rfl, fun hlegal => ?_, fun hillegal => exec_loadkey_of_illegal hillegal s⟩
  obtain ⟨e, he, hexec⟩ := exec_loadkey_of_legal hlegal s
  refine ⟨e, hexec, keyed_of_keyOf he, fun i r hr => ⟨?_, fun j => pin_of_keyOf he hr⟩⟩
  obtain ⟨-, h0, hlt⟩ := hlegal.2 i r hr
  rw [get_of_keyOf he hr, posValue_toNat_of_lt_size h0 hlt]

/-! ### REPOS -/

theorem get_of_positionsOf {ps : List Byte} {pos : Positions} (h : positionsOf ps = some pos) {i : WheelIx} {b : Byte}
    (hb : ps[recordNo i]? = some b) : pos.get i = posValue b := by
  unfold positionsOf at h
  split at h
  · split at h
    · cases h
      cases i <;> cases hb <;> rfl
    · cases h
  · cases h

/-- Settles O21: the three clauses are the three outcomes of REPOS. -/
theorem reposSetsAllSixPositionsOrNone : Obligations.ReposSetsAllSixPositionsOrNone := by
  refine fun ps s => ⟨rfl, fun hk hlegal => ?_, exec_repos_of_illegal, exec_repos_of_unkeyed ps⟩
  obtain ⟨pos, hpos, hexec⟩ := exec_repos_of_legal hk hlegal
  refine ⟨pos, hexec, fun i b hb => ?_⟩
  obtain ⟨h0, hlt⟩ := hlegal.2 i b hb
  rw [get_of_positionsOf hpos hb, posValue_toNat_of_lt_size h0 hlt]

/-! ### Characters and letters -/

theorem isLetterCode_iff (c : Byte) : isLetterCode c = true ↔ 0x41 ≤ c.toNat ∧ c.toNat ≤ 0x5A := by
  simp only [isLetterCode, Bool.and_eq_true, decide_eq_true_eq]

theorem all_isLetterCode_iff (cs : List Byte) : cs.all isLetterCode = true ↔ LettersOnly cs := by
  simp only [List.all_eq_true, isLetterCode_iff]

theorem lettersOnly_append {a b : List Byte} : LettersOnly (a ++ b) ↔ LettersOnly a ∧ LettersOnly b :=
  List.forall_mem_append

theorem codeOf_toNat (o : Letter) : (codeOf o).toNat = 0x41 + o.val := by
  simp only [codeOf, Config.codeA, BitVec.toNat_ofNat]
  omega

theorem letterOf_codeOf (o : Letter) : letterOf (codeOf o) = o := by
  apply Fin.ext
  simp only [letterOf, codeOf_toNat, Config.codeA, Fin.ofNat]
  omega

theorem codeOf_letterOf {c : Byte} (h : 0x41 ≤ c.toNat ∧ c.toNat ≤ 0x5A) : codeOf (letterOf c) = c := by
  apply BitVec.eq_of_toNat_eq
  simp only [codeOf_toNat, letterOf, Config.codeA, Fin.ofNat]
  omega

theorem lettersOnly_map_codeOf (os : List Letter) : LettersOnly (os.map codeOf) := by
  intro c hc
  obtain ⟨o, -, rfl⟩ := List.mem_map.mp hc
  rw [codeOf_toNat]
  omega

theorem map_letterOf_map_codeOf (os : List Letter) : (os.map codeOf).map letterOf = os := by
  simp only [List.map_map, Function.comp_def, letterOf_codeOf, List.map_id']

theorem map_codeOf_map_letterOf {cs : List Byte} (h : LettersOnly cs) : (cs.map letterOf).map codeOf = cs := by
  rw [List.map_map]
  exact (List.map_congr_left fun c hc => codeOf_letterOf (h c hc)).trans (List.map_id cs)

/-! ### The outcome of a message -/

/-- The character octets a message is answered with, begun at an engine (R104). -/
def Engine.cipher (e : Engine) (cs : List Byte) : List Byte := (e.process (cs.map letterOf)).1.map codeOf

/-- The engine a message leaves, begun at an engine (R104). -/
def Engine.afterMessage (e : Engine) (cs : List Byte) : Engine := (e.process (cs.map letterOf)).2

@[simp] theorem Engine.cipher_length (e : Engine) (cs : List Byte) : (e.cipher cs).length = cs.length := by
  simp only [Engine.cipher, List.length_map, Engine.process_length]

@[simp] theorem Engine.afterMessage_keyed (e : Engine) (cs : List Byte) : (e.afterMessage cs).keyed = e.keyed :=
  (Engine.process_keyed_pins _ e).1

theorem Engine.lettersOnly_cipher (e : Engine) (cs : List Byte) : LettersOnly (e.cipher cs) := lettersOnly_map_codeOf _

/-- The count of a response is reduced to its two octets (R62). -/
theorem okMessage_eq (n : Nat) (os : List Byte) :
    okMessage n os = some ⟨.engine, statusOk :: (octetsOfCount n ++ os)⟩ := by
  have hlow : BitVec.ofNat 8 (n % 256) = BitVec.ofNat 8 n := BitVec.eq_of_toNat_eq (by simp)
  simp only [okMessage, octetsOfCount, hlow]
  rfl

theorem message_of_letters {cs : List Byte} (h : LettersOnly cs) (s : State) :
    message cs s =
      { s with engine := s.engine.afterMessage cs, response := okMessage cs.length (s.engine.cipher cs) } := by
  rw [okMessage_eq]
  simp only [message, (all_isLetterCode_iff cs).mpr h, if_true]
  rfl

theorem message_of_not_letters {cs : List Byte} (h : ¬LettersOnly cs) (s : State) :
    message cs s = s.raise .engine .invalidCharacter := by
  simp only [message, all_isLetterCode_iff, h, if_false]

/-- ENC and DEC of a keyed engine are one procedure (R106). -/
theorem exec_message {i : Instr} {cs : List Byte} {s : State} (hi : i = .enc cs ∨ i = .dec cs)
    (hk : s.engine.keyed = true) : exec i s = .next (message cs s) := by
  obtain rfl | rfl := hi <;> exact congrArg _ (State.whenKeyed_of_keyed _ hk)

/-! ### Consecutive messages -/

theorem Engine.process_append (e : Engine) (a b : List Letter) :
    e.process (a ++ b) =
      ((e.process a).1 ++ ((e.process a).2.process b).1, ((e.process a).2.process b).2) := by
  induction a generalizing e with
  | nil => rfl
  | cons c cs ih => simp only [List.cons_append, Engine.process, ih]

theorem Engine.cipher_append (e : Engine) (a b : List Byte) :
    e.cipher (a ++ b) = e.cipher a ++ (e.afterMessage a).cipher b := by
  simp only [Engine.cipher, Engine.afterMessage, List.map_append, Engine.process_append]

theorem Engine.afterMessage_append (e : Engine) (a b : List Byte) :
    e.afterMessage (a ++ b) = (e.afterMessage a).afterMessage b := by
  simp only [Engine.afterMessage, List.map_append, Engine.process_append]

/-- Settles O25: the joined message is processed as its parts, one from where the other left the engine. -/
theorem consecutiveMessagesContinueTheKeystream : Obligations.ConsecutiveMessagesContinueTheKeystream := by
  intro a b s ia ib iab hia hib hiab hk ha
  have hta := message_of_letters ha s
  have hka : (message a s).engine.keyed = true := by rw [hta]; exact (s.engine.afterMessage_keyed a).trans hk
  refine ⟨message a s, message b (message a s), message (a ++ b) s, s.engine.cipher a, exec_message hia hk,
    exec_message hib hka, exec_message hiab hk, by rw [hta], s.engine.cipher_length a, fun hb => ?letters, fun hb => ?bad⟩
  case letters =>
    rw [message_of_letters (lettersOnly_append.mpr ⟨ha, hb⟩), message_of_letters hb, hta, List.length_append,
      Engine.cipher_append, Engine.afterMessage_append]
    exact ⟨(s.engine.afterMessage a).cipher b, rfl, Engine.cipher_length _ b, rfl, rfl⟩
  case bad =>
    have hab : ¬LettersOnly (a ++ b) := fun h => hb (lettersOnly_append.mp h).2
    exact ⟨message_of_not_letters hb _, message_of_not_letters hab s⟩

/-! ### DEC undoes ENC -/

/-- The inner ring is the outer ring read backwards from place 5 (R45, R46, R152). -/
theorem idxIn_ringAt_outer : ∀ k : Fin 26, idxIn (ringAt Config.outer k) = (31 - k.val) % 26 := by decide

theorem ringAt_outer_reflected_idxIn : ∀ c : Letter, ringAt Config.outer ((31 - idxIn c) % 26) = c := by decide

/-- A letter's place in the inner ring is one of its 26. -/
theorem idxIn_lt : ∀ c : Letter, idxIn c < 26 := by decide

/-- SUB undoes itself, for every digit (R153). -/
theorem subst_subst (c : Letter) (digit : Nat) : subst (subst c digit) digit = c := by
  have hidx := idxIn_lt c
  have hrefl := idxIn_ringAt_outer ⟨(idxIn c + digit) % 26, Nat.mod_lt _ (by decide)⟩
  have hback : ((31 - (idxIn c + digit) % 26) % 26 + digit) % 26 = (31 - idxIn c) % 26 := by omega
  simp only [subst, hrefl, hback, ringAt_outer_reflected_idxIn]

/-- The positions CHAR leaves and the digit it uses do not depend on the letter (R123). -/
theorem Engine.char_char (e : Engine) (c : Letter) : e.char (e.char c).1 = (c, (e.char c).2) := by
  simp only [Engine.char, subst_subst]

theorem Engine.process_process (e : Engine) (cs : List Letter) :
    e.process (e.process cs).1 = (cs, (e.process cs).2) := by
  induction cs generalizing e with
  | nil => rfl
  | cons c cs ih => simp only [Engine.process, Engine.char_char, ih]

theorem Engine.cipher_cipher {cs : List Byte} (h : LettersOnly cs) (e : Engine) : e.cipher (e.cipher cs) = cs := by
  simp only [Engine.cipher, map_letterOf_map_codeOf, Engine.process_process, map_codeOf_map_letterOf h]

theorem Engine.afterMessage_cipher (e : Engine) (cs : List Byte) :
    e.afterMessage (e.cipher cs) = e.afterMessage cs := by
  simp only [Engine.cipher, Engine.afterMessage, map_letterOf_map_codeOf, Engine.process_process]

/-- A keyed engine with one active pin, pin 8 of wheel 1: the keystream begins with the digits 1 and 0. -/
def onePinState : State := { State.reset with engine := ⟨true, ⟨0x100, 0, 0, 0, 0, 0⟩, Positions.reset⟩ }

/-- The letter A under digit 1 is no longer answered with A under digit 0. -/
theorem onePinState_dec_after_enc :
    (onePinState.engine.afterMessage [0x41]).cipher (onePinState.engine.cipher [0x41]) ≠ [0x41] := by decide

theorem okMessage_injective {n : Nat} {os os' : List Byte} (h : okMessage n os = okMessage n os') : os = os' := by
  simpa [okMessage] using h

theorem Engine.eq_of_registers {e f : Engine} (hkeyed : e.keyed = f.keyed) (hpins : e.pins = f.pins)
    (hpos : e.pos = f.pos) : e = f := by
  cases e; cases f
  simp only [Engine.mk.injEq]
  exact ⟨hkeyed, hpins, hpos⟩

/-- Settles O26: from the same engine a message undoes itself; one active pin shows that the keystream has else moved on. -/
theorem decFromTheSamePositionsUndoesEnc : Obligations.DecFromTheSamePositionsUndoesEnc := by
  refine ⟨fun m s u hk hm huk hpins hpos => ?undone, ?moved⟩
  case undone =>
    have hu : u.engine = s.engine := Engine.eq_of_registers (huk.trans hk.symm) hpins hpos
    have hc := s.engine.lettersOnly_cipher m
    refine ⟨message m s, message (s.engine.cipher m) u, s.engine.cipher m, exec_message (.inl rfl) hk, ?_,
      s.engine.cipher_length m, exec_message (.inr rfl) huk, ?_, ?_⟩
    · rw [message_of_letters hm]
    · rw [message_of_letters hc, hu, Engine.cipher_cipher hm, Engine.cipher_length]
    · rw [message_of_letters hc, message_of_letters hm, hu]
      exact s.engine.afterMessage_cipher m
  case moved =>
    have hm : LettersOnly [0x41] := by decide
    have hc := onePinState.engine.lettersOnly_cipher [0x41]
    have ht := message_of_letters hm onePinState
    refine ⟨[0x41], onePinState.engine.cipher [0x41], onePinState, message [0x41] onePinState,
      message (onePinState.engine.cipher [0x41]) (message [0x41] onePinState), rfl, by decide, hm,
      exec_message (.inl rfl) rfl, by rw [ht], exec_message (.inr rfl) (by rw [ht]; rfl), ?_⟩
    rw [message_of_letters hc, ht]
    exact fun h => onePinState_dec_after_enc (okMessage_injective h)

/-! ### ENC and DEC frames -/

/-- Format M reads the characters without regard to the opcode they belong to (R68). -/
theorem decodeFormatM_cases (octets : List Byte) :
    (∃ cs, ∀ mk, decodeFormatM mk octets = .ok (mk cs)) ∨ ∀ mk, decodeFormatM mk octets = .error .wrongLength := by
  match octets with
  | [] | [_] => exact .inr fun _ => rfl
  | lo :: hi :: cs =>
    by_cases h : cs.length = countOfOctets lo hi
    · exact .inl ⟨cs, fun _ => if_pos h⟩
    · exact .inr fun _ => if_neg h

theorem step_frame_of_command {s : State} {p : Port} {octets : List Byte} {rest : List Input} {i : Instr}
    (hd : decode p octets = .ok i) :
    step { s with inputs := .frame p octets :: rest } = exec i { s with inputs := rest } :=
  step_command rfl hd

theorem step_frame_of_noCommand {s : State} {p : Port} {octets : List Byte} {rest : List Input} {e : DecodeError}
    (hd : decode p octets = .error e) :
    step { s with inputs := .frame p octets :: rest } = .next (({ s with inputs := rest } : State).raise p .badCommand) :=
  step_noCommand rfl hd

/-- Settles O23: the two frames hold the same characters, or both hold none and are refused. -/
theorem aDecFrameActsAsTheEncFrame : Obligations.ADecFrameActsAsTheEncFrame := by
  intro s octets rest
  have henc : decode .engine (0x10 :: octets) = decodeFormatM .enc octets := rfl
  have hdec : decode .engine (0x11 :: octets) = decodeFormatM .dec octets := rfl
  obtain ⟨cs, hcs⟩ | herror := decodeFormatM_cases octets
  · rw [step_frame_of_command (hdec.trans (hcs .dec)), step_frame_of_command (henc.trans (hcs .enc))]
    rfl
  · rw [step_frame_of_noCommand (hdec.trans (herror .dec)), step_frame_of_noCommand (henc.trans (herror .enc))]

end Sys2Proof.Machine
end

section
/-! SUPPORT. The machine's pass, PRESTEP, PRN, CHAR and message tied to the spec's closed forms S, D and T (R122, R126, R133,
R140), the advance of each wheel in a CHAR, and the statements of the family 42_char_transform.md. -/

namespace Sys2Proof.Machine

open Sys2Proof.Safety

/-! ### The pass -/

@[simp] theorem get_passS (k : PinRegs) (p : Positions) (i : WheelIx) : (passS k p).get i = passPos k p i := by
  cases i <;> rfl

/-- A position reduced by a wheel's size fits its five bits. -/
theorem toNat_ofNat_mod_size (n : Nat) (i : WheelIx) : (BitVec.ofNat 5 (n % i.size)).toNat = n % i.size := by
  have hlt : n % i.size < 2 ^ 5 := (Nat.mod_lt n i.size_pos).trans_le (i.size_le.trans (by decide))
  rw [BitVec.toNat_ofNat, Nat.mod_eq_of_lt hlt]

theorem passPos_toNat (k : PinRegs) (p : Positions) (i : WheelIx) :
    (passPos k p i).toNat = ((p.get i).toNat + passSteps k p i) % i.size := by
  rw [passPos, toNat_ofNat_mod_size, passSteps, add_assoc]

/-- A wheel's new position depends on its own position and its left neighbour's (R136). -/
theorem passPos_congr {k : PinRegs} {p q : Positions} {i : WheelIx} (hself : p.get i = q.get i)
    (hleft : ∀ l, i.left = some l → p.get l = q.get l) : passPos k p i = passPos k q i := by
  have hextra : extra k p i = extra k q i := by
    cases i with
    | w1 => rfl
    | w2 | w3 | w4 | w5 | w6 => simp only [extra, pinAt, hleft _ rfl]
  rw [passPos, passPos, hself, hextra]

/-- The machine's test of the extra step is the `e_i` of R133. -/
theorem Engine.takesExtra_toNat (e : Engine) (i : WheelIx) : (e.takesExtra i).toNat = extra e.pins e.pos i := by
  cases i <;> rfl

theorem Engine.step_get_of_ne (e : Engine) {i j : WheelIx} (h : j ≠ i) : (e.step i).pos.get j = e.pos.get j :=
  Positions.get_set_of_ne _ _ h.symm

theorem Engine.passAt_get_of_ne (e : Engine) {i j : WheelIx} (h : j ≠ i) :
    (e.passAt i).pos.get j = e.pos.get j := by
  unfold Engine.passAt
  split <;> simp only [Engine.step_get_of_ne _ h]

theorem Engine.passAt_get_self (e : Engine) (i : WheelIx) : (e.passAt i).pos.get i = passPos e.pins e.pos i := by
  apply BitVec.eq_of_toNat_eq
  rw [passPos_toNat, passSteps, ← e.takesExtra_toNat]
  unfold Engine.passAt
  cases e.takesExtra i <;> simp [Engine.step_get, add_assoc]

/-- Wheels passed once each, none after its left neighbour, all move as the old positions say (R130, R134). -/
theorem Engine.foldl_passAt_get (e : Engine) {is : List WheelIx}
    (h : is.Pairwise fun i j => j ≠ i ∧ j.left ≠ some i) (j : WheelIx) :
    (is.foldl Engine.passAt e).pos.get j = if j ∈ is then passPos e.pins e.pos j else e.pos.get j := by
  induction is generalizing e with
  | nil => rfl
  | cons i is ih =>
    obtain ⟨hi, his⟩ := List.pairwise_cons.mp h
    rw [List.foldl_cons, ih _ his, Engine.passAt_pins]
    by_cases hj : j ∈ is
    · obtain ⟨hne, hleft⟩ := hi j hj
      have hcongr : passPos e.pins (e.passAt i).pos j = passPos e.pins e.pos j :=
        passPos_congr (e.passAt_get_of_ne hne) fun l hl => e.passAt_get_of_ne fun hli => hleft (hli ▸ hl)
      simp only [hj, List.mem_cons, or_true, if_true, hcongr]
    · by_cases hji : j = i
      · subst hji
        simp [hj, e.passAt_get_self]
      · simp [hj, hji, e.passAt_get_of_ne hji]

/-- STEPALL is the pass `S` of R133. -/
theorem Engine.stepAll_eq (e : Engine) : e.stepAll = { e with pos := passS e.pins e.pos } := by
  have horder : Config.passOrder.Pairwise fun i j => j ≠ i ∧ j.left ≠ some i := by decide
  have hmem : ∀ i, i ∈ Config.passOrder := by intro i; cases i <;> decide
  obtain ⟨hkeyed, hpins⟩ := e.stepAll_keyed_pins
  refine Engine.eq_of_registers hkeyed hpins (Positions.ext_get fun i => ?_)
  rw [get_passS, Engine.stepAll, e.foldl_passAt_get horder, if_pos (hmem i)]

/-! ### The steps of a CHAR -/

/-- PRESTEP leaves the positions PRN reads (R122, R131). -/
theorem Engine.preStep_eq (e : Engine) : e.preStep = { e with pos := atPrn e.pins e.pos } := by
  have hguard : e.peek Config.trigWheel Config.offStep = pinAt e.pins e.pos .w6 (-5) := rfl
  rw [Engine.preStep, hguard, atPrn, e.stepAll_eq]
  split <;> rfl

/-- A pin inverted by wheel 6's is the `bit_i` of R140. -/
theorem toNat_xor_pinAt (k : PinRegs) (p : Positions) (i : WheelIx) :
    (xor (pinAt k p .w6 8) (pinAt k p i 8)).toNat = keyBit k p i := by
  unfold keyBit
  cases pinAt k p .w6 8 <;> cases pinAt k p i 8 <;> rfl

/-- PRN is the weighted sum of R140. -/
theorem Engine.prn_eq (e : Engine) : e.prn = digitOf e.pins e.pos := by
  have hpeek : ∀ i, e.peek i 8 = pinAt e.pins e.pos i 8 := fun _ => rfl
  simp [Engine.prn, weightedSum, Config.weights, hpeek, toNat_xor_pinAt, digitOf, add_assoc]

/-- CHAR answers SUB of the digit D and leaves the positions T (R122, R126). -/
theorem Engine.char_eq (e : Engine) (c : Letter) :
    e.char c = (subst c (charD e.pins e.pos), { e with pos := charT e.pins e.pos }) := by
  simp only [Engine.char, Engine.postStep, Engine.preStep_eq, Engine.stepAll_eq, Engine.prn_eq, charD, charT]

theorem exec_char (c : Letter) (s : State) :
    exec (.char c) s = .next { s with
      engine := { s.engine with pos := charT s.engine.pins s.engine.pos }
      micro := some (subst c (charD s.engine.pins s.engine.pos)).val } := by
  simp only [exec, execChar, Engine.char_eq]
  rfl

/-- Settles O29: each state is the one the step before it leaves, and the model's CHAR is their composition by definition. -/
theorem charRunsItsFourStepsInOrder : Obligations.CharRunsItsFourStepsInOrder := by
  intro c s
  exact ⟨_, _, _, _, s.engine.preStep.prn, subst c s.engine.preStep.prn, rfl, rfl, rfl, rfl, rfl, rfl, rfl, rfl, rfl⟩

/-! ### The advance of a wheel -/

theorem passSteps_w1 (k : PinRegs) (p : Positions) : passSteps k p .w1 = 1 := rfl

theorem passSteps_bounds (k : PinRegs) (p : Positions) (i : WheelIx) : 1 ≤ passSteps k p i ∧ passSteps k p i ≤ 2 := by
  have hextra : extra k p i ≤ 1 := by cases i <;> simp [extra, Bool.toNat_le]
  rw [passSteps]
  omega

theorem charSteps_w1_le (k : PinRegs) (p : Positions) : charSteps k p .w1 ≤ 2 := by
  simp only [charSteps, passSteps_w1]
  split <;> decide

theorem charSteps_bounds (k : PinRegs) (p : Positions) (i : WheelIx) : 1 ≤ charSteps k p i ∧ charSteps k p i ≤ 4 := by
  have hpre := passSteps_bounds k p i
  have hpost := passSteps_bounds k (atPrn k p) i
  rw [charSteps]
  split <;> omega

/-- The advances of the two passes of a CHAR add up, modulo the size. -/
theorem charT_get_toNat (k : PinRegs) (p : Positions) (i : WheelIx) :
    ((charT k p).get i).toNat = ((p.get i).toNat + charSteps k p i) % i.size := by
  rw [charT, get_passS, passPos_toNat, charSteps]
  by_cases hpre : pinAt k p .w6 (-5) = true
  · have hp : atPrn k p = passS k p := if_pos hpre
    rw [if_pos hpre, hp, get_passS, passPos_toNat, Nat.mod_add_mod, add_assoc]
  · have hp : atPrn k p = p := if_neg hpre
    rw [if_neg hpre, hp, zero_add]

/-- Settles O30: `p'` is what PRN reads, and a wheel advances by its steps in the one or two passes. -/
theorem charStepsOnceOrTwiceFromTheOldPositions : Obligations.CharStepsOnceOrTwiceFromTheOldPositions := by
  intro c s
  refine ⟨atPrn s.engine.pins s.engine.pos, charT s.engine.pins s.engine.pos,
    fun hpre => if_neg (ne_true_of_eq_false hpre), fun hpre => if_pos hpre, rfl, exec_char c s,
    charSteps s.engine.pins s.engine.pos, charSteps_w1_le _ _, fun i => ?_⟩
  obtain ⟨hlow, hhigh⟩ := charSteps_bounds s.engine.pins s.engine.pos i
  exact ⟨hlow, hhigh, charT_get_toNat _ _ i⟩

/-! ### The message -/

theorem charTn_eq_iterate (k : PinRegs) (p : Positions) (n : Nat) : charTn k p n = (charT k)^[n] p := by
  induction n with
  | zero => rfl
  | succ n ih => rw [charTn, ih, Function.iterate_succ_apply']

/-- The positions after n + 1 characters are those after n from where the first one ends. -/
theorem charTn_charT (k : PinRegs) (p : Positions) (n : Nat) : charTn k (charT k p) n = charTn k p (n + 1) := by
  rw [charTn_eq_iterate, charTn_eq_iterate, Function.iterate_succ_apply]

/-- Letter k of a message is enciphered with the digit of the positions T applied k times (R126). -/
theorem Engine.process_eq (e : Engine) (cs : List Letter) :
    e.process cs =
      (cs.mapIdx fun k c => subst c (charD e.pins (charTn e.pins e.pos k)),
        { e with pos := charTn e.pins e.pos cs.length }) := by
  induction cs generalizing e with
  | nil => rfl
  | cons c cs ih =>
    simp only [Engine.process, Engine.char_eq, ih, charTn_charT, List.mapIdx_cons, List.length_cons]
    rfl

theorem Engine.afterMessage_eq (e : Engine) (cs : List Byte) :
    e.afterMessage cs = { e with pos := charTn e.pins e.pos cs.length } := by
  rw [Engine.afterMessage, Engine.process_eq, List.length_map]

theorem Engine.cipher_getElem? (e : Engine) (cs : List Byte) (k : Nat) :
    (e.cipher cs)[k]? = cs[k]?.map fun c => substCode c (charD e.pins (charTn e.pins e.pos k)) := by
  simp only [Engine.cipher, Engine.process_eq, List.getElem?_map, List.getElem?_mapIdx, Option.map_map]
  rfl

theorem exec_message_of_letters {i : Instr} {cs : List Byte} {s : State} (hi : i = .enc cs ∨ i = .dec cs)
    (hk : s.engine.keyed = true) (h : LettersOnly cs) :
    exec i s = .next { s with
      engine := { s.engine with pos := charTn s.engine.pins s.engine.pos cs.length }
      response := okMessage cs.length (s.engine.cipher cs) } := by
  rw [exec_message hi hk, message_of_letters h, Engine.afterMessage_eq]

/-- Settles O22: the letters are those of `Engine.cipher`, read place by place. -/
theorem encAndDecEncipherWithTheKeystreamOfTheKey : Obligations.EncAndDecEncipherWithTheKeystreamOfTheKey := by
  intro cs s i hi hk h
  refine ⟨s.engine.cipher cs, exec_message_of_letters hi hk h, s.engine.cipher_length cs, fun k c hc => ?_⟩
  rw [Engine.cipher_getElem?, hc, Option.map_some]

/-! ### The letters do not steer the machine -/

theorem idxOut_ringAt_outer : ∀ j : Fin 26, idxOut (ringAt Config.outer j) = j.val := by decide

theorem idxOut_subst (c : Letter) (digit : Nat) : idxOut (subst c digit) = (idxIn c + digit) % 26 :=
  idxOut_ringAt_outer ⟨(idxIn c + digit) % 26, Nat.mod_lt _ (by decide)⟩

theorem letterOf_substCode (c : Byte) (digit : Nat) : letterOf (substCode c digit) = subst (letterOf c) digit :=
  letterOf_codeOf _

/-- A character and its output determine the digit, modulo 26 (R155). -/
theorem idxOut_sub_idxIn_substCode (c : Byte) (digit : Nat) :
    ((idxOut (letterOf (substCode c digit)) : Int) - (idxIn (letterOf c) : Int)) % 26 = (digit : Int) % 26 := by
  rw [letterOf_substCode, idxOut_subst]
  omega

/-- At place k of a message the difference of output and input is the digit of the pins and the positions alone (R123). -/
theorem Engine.idxOut_sub_idxIn_cipher {e : Engine} {cs : List Byte} {k : Nat} {c o : Byte} (hc : cs[k]? = some c)
    (ho : (e.cipher cs)[k]? = some o) :
    ((idxOut (letterOf o) : Int) - (idxIn (letterOf c) : Int)) % 26
      = (charD e.pins (charTn e.pins e.pos k) : Int) % 26 := by
  rw [Engine.cipher_getElem?, hc, Option.map_some, Option.some.injEq] at ho
  rw [← ho, idxOut_sub_idxIn_substCode]

/-- Settles O31: positions and digits are those of the closed forms D and T, in which no letter stands. -/
theorem theLettersDoNotSteerTheMachine : Obligations.TheLettersDoNotSteerTheMachine := by
  refine ⟨fun c d s s' hpins hpos => ?char, fun cs ds s hk hcs hds hlen => ?message⟩
  case char =>
    refine ⟨_, _, charD s.engine.pins s.engine.pos, exec_char c s, exec_char d s', rfl, ?_, ?_⟩
    · rw [hpins, hpos]
    · simp only [hpins, hpos]
  case message =>
    refine ⟨_, _, s.engine.cipher cs, s.engine.cipher ds, exec_message_of_letters (.inl rfl) hk hcs,
      exec_message_of_letters (.inl rfl) hk hds, ?_, rfl, rfl, s.engine.cipher_length cs, s.engine.cipher_length ds,
      fun k c o d q hc ho hd hq => ?_⟩
    · simp only [hlen]
    · rw [Engine.idxOut_sub_idxIn_cipher hc ho, Engine.idxOut_sub_idxIn_cipher hd hq]

end Sys2Proof.Machine
end

section
/-! SUPPORT. The stepping micro-operations as the closed forms S and p' (R130 to R133), the advance of each wheel under a key
whose pins are all alike (R135), and the statements of the family 43_stepping.md. -/

namespace Sys2Proof.Machine

open Sys2Proof.Safety

/-! ### STEPALL, POSTSTEP and PRESTEP -/

theorem exec_stepall (s : State) :
    exec .stepall s = .next { s with engine := { s.engine with pos := passS s.engine.pins s.engine.pos } } :=
  congrArg (fun e => Host.Outcome.next (s.withEngine e)) s.engine.stepAll_eq

/-- POSTSTEP is a pass without a guard (R132). -/
theorem exec_poststep (s : State) : exec .poststep s = exec .stepall s := rfl

theorem exec_prestep (s : State) :
    exec .prestep s = .next { s with engine := { s.engine with pos := atPrn s.engine.pins s.engine.pos } } :=
  congrArg (fun e => Host.Outcome.next (s.withEngine e)) s.engine.preStep_eq

theorem exec_prestep_of_active {s : State} (h : pinAt s.engine.pins s.engine.pos .w6 (-5) = true) :
    exec .prestep s = exec .stepall s := by
  rw [exec_prestep, exec_stepall, atPrn, if_pos h]

theorem exec_prestep_of_inactive {s : State} (h : pinAt s.engine.pins s.engine.pos .w6 (-5) = false) :
    exec .prestep s = .next s := by
  rw [exec_prestep, atPrn, if_neg (ne_true_of_eq_false h)]

/-- Settles O32: both micro-operations leave the positions `S` of R133. -/
theorem aPassMovesEachWheelByItsLeftNeighboursPin : Obligations.APassMovesEachWheelByItsLeftNeighboursPin := by
  intro s i hi
  refine ⟨passS s.engine.pins s.engine.pos, ?_, fun w => ?_⟩
  · obtain rfl | rfl := hi
    · exact exec_stepall s
    · exact (exec_poststep s).trans (exec_stepall s)
  · rw [get_passS, passPos, toNat_ofNat_mod_size]

/-- Settles O33: the two clauses are the two outcomes of the guard. -/
theorem prestepRunsAPassOnlyIfWheelSixAllows : Obligations.PrestepRunsAPassOnlyIfWheelSixAllows := by
  intro s
  refine ⟨rfl, fun hactive => ?_, fun hinactive => exec_prestep_of_inactive hinactive⟩
  have hpass := exec_prestep_of_active hactive
  exact ⟨hpass.trans (exec_stepall s), hpass⟩

/-! ### The extreme keys -/

/-- Every pin of the key has the value `b`: the all-zero and the all-one key of R135. -/
def PinRegs.AllPins (k : PinRegs) (b : Bool) : Prop := ∀ (i : WheelIx) (j : Nat), j < i.size → k.pin i j = b

section

variable {k : PinRegs} {b : Bool} (h : k.AllPins b)
include h

/-- Every peek reads a pin of the wheel, whatever the position (R41). -/
theorem PinRegs.AllPins.pinAt_eq (p : Positions) (i : WheelIx) (off : Int) : pinAt k p i off = b :=
  h i _ (pinIndex_lt (p.get i).toNat off i.size_pos)

theorem PinRegs.AllPins.extra_eq (p : Positions) (i : WheelIx) : extra k p i = if i = .w1 then 0 else b.toNat := by
  cases i with
  | w1 => rfl
  | w2 | w3 | w4 | w5 | w6 => exact congrArg Bool.toNat (h.pinAt_eq p _ (-5))

theorem PinRegs.AllPins.passSteps_eq (p : Positions) (i : WheelIx) :
    passSteps k p i = if b then (if i = .w1 then 1 else 2) else 1 := by
  rw [passSteps, h.extra_eq]
  cases b <;> split <;> rfl

/-- With every pin 1 a character takes two passes, with every pin 0 one (R135). -/
theorem PinRegs.AllPins.charSteps_eq (p : Positions) (i : WheelIx) :
    charSteps k p i = if b then (if i = .w1 then 2 else 4) else 1 := by
  rw [charSteps, h.pinAt_eq, h.passSteps_eq, h.passSteps_eq]
  cases b with
  | false => rfl
  | true => by_cases hi : i = .w1 <;> simp [hi]

end

/-- Settles O34: each movement is the count of the wheel's steps in the pass or in the character. -/
theorem extremeKeysMoveTheWheelsByOneOrByTwoAndFour : Obligations.ExtremeKeysMoveTheWheelsByOneOrByTwoAndFour := by
  intro s c b hpins
  have hall : s.engine.pins.AllPins b := hpins
  have hguard := hall.pinAt_eq s.engine.pos .w6 (-5)
  refine ⟨_, _, exec_stepall s, exec_char c s, ?prestep, fun i => ⟨?pass, ?char⟩⟩
  case prestep =>
    cases b with
    | false => exact exec_prestep_of_inactive hguard
    | true => exact (exec_prestep_of_active hguard).trans (exec_stepall s)
  case pass => rw [get_passS, passPos_toNat, hall.passSteps_eq]
  case char => rw [charT_get_toNat, hall.charSteps_eq]

end Sys2Proof.Machine
end

section
/-! SUPPORT. PRN as a micro-operation, the values of its weighted sum and what the digit depends on (R140, R141, R144), and
the statements of the family 44_keystream.md. -/

namespace Sys2Proof.Machine

open Sys2Proof.Safety

/-! ### PRN -/

theorem exec_prn (s : State) :
    exec .prn s = .next { s with micro := some (digitOf s.engine.pins s.engine.pos) } :=
  congrArg (fun v => Host.Outcome.next (s.returning v)) s.engine.prn_eq

/-- Settles O37: no frame encodes a micro-operation, and its one result is the sequencer's. -/
theorem prnIsTheWeightedSumOfThePinsThatDifferFromWheelSix :
    Obligations.PrnIsTheWeightedSumOfThePinsThatDifferFromWheelSix :=
  fun s => ⟨rfl, exec_prn s⟩

/-! ### The values of the weighted sum -/

/-- The closed form of R140 is the machine's weighted sum of the pins at +8: PRN computes both. -/
theorem digitOf_eq_weightedSum (k : PinRegs) (p : Positions) :
    digitOf k p = weightedSum (pinAt k p .w6 8) fun i => pinAt k p i 8 :=
  (Engine.prn_eq ⟨true, k, p⟩).symm

theorem keyBit_le_one (k : PinRegs) (p : Positions) (i : WheelIx) : keyBit k p i ≤ 1 := by
  rw [← toNat_xor_pinAt]
  exact Bool.toNat_le _

/-- The weights add up to 25 (R141). -/
theorem digitOf_le (k : PinRegs) (p : Positions) : digitOf k p ≤ 25 := by
  have h1 := keyBit_le_one k p .w1
  have h2 := keyBit_le_one k p .w2
  have h3 := keyBit_le_one k p .w3
  have h4 := keyBit_le_one k p .w4
  have h5 := keyBit_le_one k p .w5
  rw [digitOf]
  omega

/-- The 32 combinations of five pins, counted by their sum: 10..15 arise with the fifth weight 10 and without it (R141). -/
theorem card_fivePins_of_weightedSum (inv : Bool) {v : Nat} (hv : v ≤ 25) :
    (Finset.univ.filter fun b => weightedSum inv (fivePins b) = v).card = if 10 ≤ v ∧ v ≤ 15 then 2 else 1 := by
  revert v
  cases inv <;> decide

theorem exists_fivePins_weightedSum_eq (inv : Bool) {v : Nat} (hv : v ≤ 25) :
    ∃ b, weightedSum inv (fivePins b) = v := by
  have hcard : 0 < (Finset.univ.filter fun b => weightedSum inv (fivePins b) = v).card := by
    rw [card_fivePins_of_weightedSum inv hv]
    split <;> decide
  obtain ⟨b, hb⟩ := Finset.card_pos.mp hcard
  exact ⟨b, (Finset.mem_filter.mp hb).2⟩

/-! ### A state for each combination of pins -/

/-- The key whose wheel i has the value `x i` in every pin. -/
def pinsOfBits (x : WheelIx → Bool) : PinRegs :=
  ⟨.fill _ (x .w1), .fill _ (x .w2), .fill _ (x .w3), .fill _ (x .w4), .fill _ (x .w5), .fill _ (x .w6)⟩

theorem pin_pinsOfBits (x : WheelIx → Bool) {i : WheelIx} {j : Nat} (hj : j < i.size) : (pinsOfBits x).pin i j = x i := by
  have hread : (pinsOfBits x).pin i j = (x i && decide (j < i.size)) := by cases i <;> exact BitVec.getLsbD_fill
  rw [hread, decide_eq_true hj, Bool.and_true]

/-- Every peek reads a pin of the wheel, whatever the position (R41). -/
theorem pinAt_pinsOfBits (x : WheelIx → Bool) (p : Positions) (i : WheelIx) (off : Int) :
    pinAt (pinsOfBits x) p i off = x i :=
  pin_pinsOfBits x (pinIndex_lt (p.get i).toNat off i.size_pos)

theorem digitOf_pinsOfBits (x : WheelIx → Bool) (p : Positions) : digitOf (pinsOfBits x) p = weightedSum (x .w6) x := by
  simp only [digitOf_eq_weightedSum, pinAt_pinsOfBits]

/-- A keyed engine at its reset positions with the key of the combination `x`. -/
def stateOfBits (x : WheelIx → Bool) : State :=
  { State.reset with engine := ⟨true, pinsOfBits x, Positions.reset⟩ }

theorem exec_prn_stateOfBits (x : WheelIx → Bool) :
    exec .prn (stateOfBits x) = .next { stateOfBits x with micro := some (weightedSum (x .w6) x) } := by
  rw [exec_prn, stateOfBits, digitOf_pinsOfBits]

/-- Settles O38: a combination with the sum v, which the count gives, is the key of a state whose digit is v. -/
theorem theDigitIsZeroToTwentyFive : Obligations.TheDigitIsZeroToTwentyFive := by
  refine ⟨fun s => ?range, fun v hv => ?attained, fun inv v hv => card_fivePins_of_weightedSum inv hv⟩
  case range => exact ⟨_, digitOf_le _ _, exec_prn s, digitOf_eq_weightedSum _ _⟩
  case attained =>
    obtain ⟨b, rfl⟩ := exists_fivePins_weightedSum_eq false hv
    have hrange : InRange Positions.reset := by decide
    exact ⟨stateOfBits (fivePins b), rfl, hrange, exec_prn_stateOfBits _⟩

/-! ### What the digit depends on -/

/-- The digit depends only on which of wheels 1 to 5 agree with wheel 6 at +8 (R144). -/
theorem digitOf_congr {k k' : PinRegs} {p p' : Positions}
    (h : ∀ i : WheelIx, i ≠ .w6 → (pinAt k' p' i 8 = pinAt k' p' .w6 8 ↔ pinAt k p i 8 = pinAt k p .w6 8)) :
    digitOf k' p' = digitOf k p := by
  have hbit : ∀ i, keyBit k' p' i = keyBit k p i := fun i => by
    by_cases hi : i = .w6
    · simp [keyBit, hi]
    · simp only [keyBit, eq_comm (a := pinAt _ _ .w6 8), h i hi]
  simp only [digitOf, hbit]

/-- Settles O39: complementing all six pins keeps which wheels agree with wheel 6. -/
theorem complementingAllSixPinsLeavesTheDigit : Obligations.ComplementingAllSixPinsLeavesTheDigit := by
  intro s s' h
  have hagree : ∀ i : WheelIx, i ≠ .w6 →
      (pinAt s'.engine.pins s'.engine.pos i 8 = pinAt s'.engine.pins s'.engine.pos .w6 8
        ↔ pinAt s.engine.pins s.engine.pos i 8 = pinAt s.engine.pins s.engine.pos .w6 8) := by
    obtain hcompl | hsame := h
    · intro i _
      rw [hcompl i, hcompl .w6, Bool.not_inj_iff]
    · exact hsame
  exact ⟨_, exec_prn s, digitOf_congr hagree ▸ exec_prn s'⟩

end Sys2Proof.Machine
end

section
/-! SUPPORT. SUB as a micro-operation, the two rings as bijections between letters and places, the place of SUB's letter in
each ring and its fixed letters (R150, R152 to R155), and the statements of the family 45_substitution.md. -/

namespace Sys2Proof.Machine

open Sys2Proof.Safety

/-! ### The outcome of SUB -/

theorem exec_sub (c : Letter) (digit : Nat) (s : State) :
    exec (.sub c digit) s = .next { s with micro := some (subst c digit).val } := rfl

/-- The sequencer's value tells the letter SUB returns (R150). -/
theorem exec_sub_eq_iff (c o : Letter) (digit : Nat) (s : State) :
    exec (.sub c digit) s = .next { s with micro := some o.val } ↔ subst c digit = o := by
  rw [exec_sub]
  constructor
  · intro h
    injection h with hstate
    have hmicro : some (subst c digit).val = some o.val := congrArg State.micro hstate
    exact Fin.ext (Option.some.inj hmicro)
  · rintro rfl
    rfl

/-- Settles O42: `subst_subst`, read in the sequencer. -/
theorem subIsItsOwnInverse : Obligations.SubIsItsOwnInverse :=
  fun c digit s _ => ⟨subst c digit, exec_sub c digit s, (exec_sub_eq_iff _ c digit s).mpr (subst_subst c digit)⟩

/-- Settles O44: the output's place in the outer ring is the digit further on than the input's in the inner ring. -/
theorem inputAndOutputDetermineTheDigit : Obligations.InputAndOutputDetermineTheDigit := by
  intro c o digit s hdigit h
  obtain rfl := (exec_sub_eq_iff c o digit s).mp h
  rw [idxOut_subst]
  omega

/-! ### The rings -/

theorem letterChar_injective : Function.Injective letterChar := by
  unfold Function.Injective
  decide

theorem mem_inner : ∀ c : Letter, c ∈ Config.inner := by decide

theorem mem_outer : ∀ c : Letter, c ∈ Config.outer := by decide

/-- In a ring that holds each letter once, a letter stands at one place only. -/
theorem getElem?_map_letterChar_eq_some_iff {ring : List Letter} (hnodup : ring.Nodup) {c : Letter} (hc : c ∈ ring)
    (k : Nat) : (ring.map letterChar)[k]? = some (letterChar c) ↔ k = ring.idxOf c := by
  rw [List.getElem?_map, Option.map_eq_some_iff]
  constructor
  · rintro ⟨d, hd, hchar⟩
    obtain rfl := letterChar_injective hchar
    obtain ⟨hk, rfl⟩ := List.getElem?_eq_some_iff.mp hd
    exact (hnodup.idxOf_getElem k hk).symm
  · rintro rfl
    exact ⟨c, List.getElem?_idxOf hc, rfl⟩

/-- The inner ring of the machine is the source's string, a permutation of the letters (R45, R150). -/
theorem innerRing_getElem?_eq_some_iff (k : Nat) (c : Letter) : innerRing[k]? = some (letterChar c) ↔ k = idxIn c := by
  have hring : innerRing = Config.inner.map letterChar := by decide
  rw [hring, idxIn, getElem?_map_letterChar_eq_some_iff (by decide) (mem_inner c)]

/-- The outer ring of the machine is the source's string, a permutation of the letters (R46). -/
theorem outerRing_getElem?_eq_some_iff (k : Nat) (c : Letter) : outerRing[k]? = some (letterChar c) ↔ k = idxOut c := by
  have hring : outerRing = Config.outer.map letterChar := by decide
  rw [hring, idxOut, getElem?_map_letterChar_eq_some_iff (by decide) (mem_outer c)]

theorem idxIn_inj {c d : Letter} : idxIn c = idxIn d ↔ c = d :=
  List.idxOf_inj (mem_inner c)

theorem idxIn_ringAt_inner : ∀ k : Fin 26, idxIn (ringAt Config.inner k) = k.val := by decide

theorem exists_idxIn_eq {k : Nat} (hk : k < 26) : ∃ c : Letter, idxIn c = k :=
  ⟨ringAt Config.inner k, idxIn_ringAt_inner ⟨k, hk⟩⟩

/-- Settles O40: the place in the inner ring is the letter's only one, and SUB's letter stands in the outer ring as many
places further on as the digit says. -/
theorem subReadsTheOuterRingFromTheInnerPlace : Obligations.SubReadsTheOuterRingFromTheInnerPlace := by
  intro c digit s
  refine ⟨idxIn c, subst c digit, rfl, idxIn_lt c, ?place, fun k hk => ?unique, ?outer, exec_sub c digit s⟩
  case place => exact (innerRing_getElem?_eq_some_iff _ c).mpr rfl
  case unique => exact (innerRing_getElem?_eq_some_iff k c).mp hk
  case outer => exact (outerRing_getElem?_eq_some_iff _ _).mpr (idxOut_subst c digit).symm

/-! ### The reflection -/

/-- In the inner ring SUB reflects the place of the letter (R152). -/
theorem idxIn_subst (c : Letter) (digit : Nat) :
    (idxIn (subst c digit) : Int) = (5 - (idxIn c : Int) - (digit : Int)) % 26 := by
  have hplace : idxIn (subst c digit) = (31 - (idxIn c + digit) % 26) % 26 :=
    idxIn_ringAt_outer ⟨(idxIn c + digit) % 26, Nat.mod_lt _ (by decide)⟩
  omega

/-- Settles O41: the reflected place is that of SUB's letter. -/
theorem subIsAReflectionOfTheInnerRing : Obligations.SubIsAReflectionOfTheInnerRing := by
  intro c digit s _
  refine ⟨subst c digit, exec_sub c digit s, ?_⟩
  rw [innerRing_getElem?_eq_some_iff, ← idxIn_subst, Int.toNat_natCast]

/-! ### The fixed letters -/

/-- A letter is its own image when its place is its own reflection (R154). -/
theorem subst_eq_self_iff (c : Letter) (digit : Nat) :
    subst c digit = c ↔ (2 * (idxIn c : Int)) % 26 = (5 - (digit : Int)) % 26 := by
  have hplace := idxIn_subst c digit
  have hlt := idxIn_lt c
  rw [← idxIn_inj]
  omega

theorem subst_ne_self_of_even {digit : Nat} (heven : digit % 2 = 0) (c : Letter) : subst c digit ≠ c := by
  rw [Ne, subst_eq_self_iff]
  omega

/-- For an odd digit the congruence of R154 has two solutions, 13 places apart. -/
theorem exists_subst_eq_self_iff_of_odd {digit : Nat} (hodd : digit % 2 = 1) (hdigit : digit ≤ 25) :
    ∃ a b : Letter, a ≠ b ∧ idxIn b = (idxIn a + 13) % 26 ∧ ∀ c : Letter, subst c digit = c ↔ c = a ∨ c = b := by
  obtain ⟨a, ha⟩ := exists_idxIn_eq (k := (31 - digit) / 2) (by omega)
  obtain ⟨b, hb⟩ := exists_idxIn_eq (k := (idxIn a + 13) % 26) (by omega)
  refine ⟨a, b, ?distinct, hb, fun c => ?fixed⟩
  case distinct =>
    rw [Ne, ← idxIn_inj]
    omega
  case fixed =>
    have hlt := idxIn_lt c
    rw [subst_eq_self_iff, ← idxIn_inj, ← idxIn_inj]
    omega

/-- The rows of the table of R154, each against all 26 letters. -/
theorem subst_eq_self_iff_of_mem_fixedLetters {digit : Nat} {x y : Char} (hrow : (digit, x, y) ∈ fixedLetters)
    (c : Letter) : subst c digit = c ↔ letterChar c = x ∨ letterChar c = y := by
  have htable : ∀ row ∈ fixedLetters, ∀ c : Letter,
      subst c row.1 = c ↔ letterChar c = row.2.1 ∨ letterChar c = row.2.2 := by decide
  exact htable _ hrow c

/-- Settles O43: each clause is a lemma about the letters `subst` fixes. -/
theorem subFixesNoLetterOrTwo : Obligations.SubFixesNoLetterOrTwo := by
  intro digit s hdigit
  simp only [ne_eq, exec_sub_eq_iff]
  exact ⟨fun c => subst_eq_self_iff c digit, subst_ne_self_of_even,
    fun hodd => exists_subst_eq_self_iff_of_odd hodd hdigit, fun _ _ => subst_eq_self_iff_of_mem_fixedLetters⟩

end Sys2Proof.Machine
end

section
/-! SUPPORT. The command frames of each port with the command each decodes to (R66 to R71), the arguments read octet by octet
against the tests of the commands (R161, R162), the answer of a step by the order of the tests (R167), and the statements of
the family 60_exceptions.md. -/

namespace Sys2Proof.Machine

open Sys2Proof.Safety

/-! ### Command frames -/

/-- The frames that are commands of a port, each with its command (R66 to R71). -/
inductive CommandFrame : Port → List Byte → Instr → Prop
  | loadkey {nw : Byte} {recs : List KeyRecord} (h : recs.length = nw.toNat) :
      CommandFrame .engine (0x01 :: nw :: recs.flatMap KeyRecord.octets) (.loadkey recs)
  | repos {np : Byte} {ps : List Byte} (h : ps.length = np.toNat) : CommandFrame .engine (0x02 :: np :: ps) (.repos ps)
  | enc {lo hi : Byte} {cs : List Byte} (h : cs.length = countOfOctets lo hi) :
      CommandFrame .engine (0x10 :: lo :: hi :: cs) (.enc cs)
  | dec {lo hi : Byte} {cs : List Byte} (h : cs.length = countOfOctets lo hi) :
      CommandFrame .engine (0x11 :: lo :: hi :: cs) (.dec cs)
  | wLoad (len pos q0 q1 q2 q3 : Byte) :
      CommandFrame .wheel [0x21, len, pos, q0, q1, q2, q3] (.wLoad len pos (pinsOfOctets q0 q1 q2 q3))
  | wPeek (off : Byte) : CommandFrame .wheel [0x22, off] (.wPeek off)
  | wStep : CommandFrame .wheel [0x23] .wStep

theorem CommandFrame.decode_eq {p : Port} {octets : List Byte} {i : Instr} (h : CommandFrame p octets i) :
    decode p octets = .ok i := by
  cases h with
  | @loadkey nw recs h =>
    have hbody : (recs.flatMap KeyRecord.octets).length = 6 * nw.toNat := by rw [flatMap_octets_length, h]
    simp only [decode, decodeEngine, decodeFormatK, hbody, decodeRecords_flatMap, if_true]
  | repos h | enc h | dec h => exact if_pos h
  | wLoad | wPeek | wStep => rfl

/-- A frame with an opcode of the port is tested by its length alone (R70). -/
theorem isCommandFrame_iff {p : Port} {op : Byte} {rest : List Byte} {n : Nat} (hop : op ∈ portOpcodes p)
    (hformat : formatLength op (rest.getD 0 0) (rest.getD 1 0) = some n) :
    isCommandFrame p (op :: rest) = true ↔ n = rest.length + 1 := by
  simp only [isCommandFrame, List.contains_eq_mem, hop, hformat, decide_true, Bool.true_and, decide_eq_true_eq,
    Option.some.injEq, List.length_cons]

/-- An opcode outside the port's list is no command's (R72). -/
theorem isCommandFrame_of_opcode {p : Port} {op : Byte} (h : op ∉ portOpcodes p) (rest : List Byte) :
    isCommandFrame p (op :: rest) = false := by
  simp only [isCommandFrame, List.contains_eq_mem, h, decide_false, Bool.false_and]

theorem isCommandFrame_of_length_ne {p : Port} {op : Byte} {rest : List Byte} {n : Nat} (hop : op ∈ portOpcodes p)
    (hformat : formatLength op (rest.getD 0 0) (rest.getD 1 0) = some n) (hlen : n ≠ rest.length + 1) :
    isCommandFrame p (op :: rest) = false :=
  Bool.eq_false_iff.mpr (mt (isCommandFrame_iff hop hformat).mp hlen)

theorem CommandFrame.isCommandFrame {p : Port} {octets : List Byte} {i : Instr} (h : CommandFrame p octets i) :
    isCommandFrame p octets = true := by
  cases h with
  | @loadkey nw recs h =>
    have hbody := flatMap_octets_length recs
    exact (isCommandFrame_iff (by decide) rfl).mpr (by simp only [List.length_cons, List.getD_cons_zero]; omega)
  | repos h | enc h | dec h =>
    refine (isCommandFrame_iff (by decide) rfl).mpr ?_
    simp only [List.length_cons, List.getD_cons_zero, List.getD_cons_succ]; omega
  | wLoad | wPeek | wStep => rfl

/-- A frame is a command frame, or the port refuses it by name and it fails the test of R164. -/
def CommandOrRefused (p : Port) (octets : List Byte) : Prop :=
  (∃ i, CommandFrame p octets i) ∨ (isCommandFrame p octets = false ∧ ∃ e, decode p octets = .error e)

theorem commandOrRefused_formatK (rest : List Byte) : CommandOrRefused .engine (0x01 :: rest) := by
  match rest with
  | [] => exact .inr ⟨rfl, _, rfl⟩
  | nw :: body =>
    by_cases hlen : body.length = 6 * nw.toNat
    · obtain ⟨recs, -, hrecs, rfl⟩ := decodeRecords_of_length _ body hlen
      exact .inl ⟨_, .loadkey hrecs⟩
    · refine .inr ⟨isCommandFrame_of_length_ne (by decide) rfl ?_, .wrongLength, if_neg hlen⟩
      simp only [List.length_cons, List.getD_cons_zero]; omega

theorem commandOrRefused_formatP (rest : List Byte) : CommandOrRefused .engine (0x02 :: rest) := by
  match rest with
  | [] => exact .inr ⟨rfl, _, rfl⟩
  | np :: ps =>
    by_cases hlen : ps.length = np.toNat
    · exact .inl ⟨_, .repos hlen⟩
    · refine .inr ⟨isCommandFrame_of_length_ne (by decide) rfl ?_, .wrongLength, if_neg hlen⟩
      simp only [List.length_cons, List.getD_cons_zero]; omega

/-- ENC and DEC have one format, whose count takes two octets (R68). -/
theorem commandOrRefused_formatM {op : Byte} {mk : List Byte → Instr} (hop : op = 0x10 ∨ op = 0x11)
    (hdecode : ∀ rest, decode .engine (op :: rest) = decodeFormatM mk rest)
    (hframe : ∀ {lo hi cs}, cs.length = countOfOctets lo hi → CommandFrame .engine (op :: lo :: hi :: cs) (mk cs))
    (rest : List Byte) : CommandOrRefused .engine (op :: rest) := by
  have hport : op ∈ portOpcodes .engine := by obtain rfl | rfl := hop <;> decide
  have hformat : ∀ b1 b2, formatLength op b1 b2 = some (3 + countOfOctets b1 b2) := by
    obtain rfl | rfl := hop <;> exact fun _ _ => rfl
  match rest with
  | [] | [_] =>
    refine .inr ⟨isCommandFrame_of_length_ne hport (hformat _ _) ?_, .wrongLength, hdecode _⟩
    simp only [List.length_cons, List.length_nil]; omega
  | lo :: hi :: cs =>
    by_cases hlen : cs.length = countOfOctets lo hi
    · exact .inl ⟨_, hframe hlen⟩
    · refine .inr ⟨isCommandFrame_of_length_ne hport (hformat _ _) ?_, .wrongLength, (hdecode _).trans (if_neg hlen)⟩
      simp only [List.length_cons, List.getD_cons_zero, List.getD_cons_succ]; omega

theorem commandOrRefused_formatWL (rest : List Byte) : CommandOrRefused .wheel (0x21 :: rest) := by
  match rest with
  | [len, pos, q0, q1, q2, q3] => exact .inl ⟨_, .wLoad len pos q0 q1 q2 q3⟩
  | [] | [_] | [_, _] | [_, _, _] | [_, _, _, _] | [_, _, _, _, _] => exact .inr ⟨rfl, _, rfl⟩
  | _ :: _ :: _ :: _ :: _ :: _ :: _ :: _ =>
    refine .inr ⟨isCommandFrame_of_length_ne (by decide) rfl ?_, _, rfl⟩
    simp only [List.length_cons]; omega

theorem commandOrRefused_formatWP (rest : List Byte) : CommandOrRefused .wheel (0x22 :: rest) := by
  match rest with
  | [off] => exact .inl ⟨_, .wPeek off⟩
  | [] => exact .inr ⟨rfl, _, rfl⟩
  | _ :: _ :: _ =>
    refine .inr ⟨isCommandFrame_of_length_ne (by decide) rfl ?_, _, rfl⟩
    simp only [List.length_cons]; omega

theorem commandOrRefused_formatWS (rest : List Byte) : CommandOrRefused .wheel (0x23 :: rest) := by
  match rest with
  | [] => exact .inl ⟨_, .wStep⟩
  | _ :: _ =>
    refine .inr ⟨isCommandFrame_of_length_ne (by decide) rfl ?_, _, rfl⟩
    simp only [List.length_cons]; omega

theorem commandOrRefused_engine (op : Byte) (rest : List Byte) : CommandOrRefused .engine (op :: rest) := by
  by_cases hop : op ∈ portOpcodes .engine
  · simp only [portOpcodes, List.mem_cons, List.not_mem_nil, or_false] at hop
    obtain rfl | rfl | rfl | rfl := hop
    · exact commandOrRefused_formatK rest
    · exact commandOrRefused_formatP rest
    · exact commandOrRefused_formatM (.inl rfl) (fun _ => rfl) .enc rest
    · exact commandOrRefused_formatM (.inr rfl) (fun _ => rfl) .dec rest
  · refine .inr ⟨isCommandFrame_of_opcode hop rest, .illegalOpcode op, ?_⟩
    simp only [portOpcodes, List.mem_cons, List.not_mem_nil, or_false, not_or] at hop
    simp only [decode, decodeEngine, hop, if_false]

theorem commandOrRefused_wheel (op : Byte) (rest : List Byte) : CommandOrRefused .wheel (op :: rest) := by
  by_cases hop : op ∈ portOpcodes .wheel
  · simp only [portOpcodes, List.mem_cons, List.not_mem_nil, or_false] at hop
    obtain rfl | rfl | rfl := hop
    · exact commandOrRefused_formatWL rest
    · exact commandOrRefused_formatWP rest
    · exact commandOrRefused_formatWS rest
  · refine .inr ⟨isCommandFrame_of_opcode hop rest, .illegalOpcode op, ?_⟩
    simp only [portOpcodes, List.mem_cons, List.not_mem_nil, or_false, not_or] at hop
    simp only [decode, decodeWheel, hop, if_false]

/-- The decoder of a port and the test of R164 agree on every frame. -/
theorem commandOrRefused (p : Port) (octets : List Byte) : CommandOrRefused p octets := by
  match octets, p with
  | [], _ => exact .inr ⟨rfl, .emptyFrame, rfl⟩
  | op :: rest, .engine => exact commandOrRefused_engine op rest
  | op :: rest, .wheel => exact commandOrRefused_wheel op rest

/-! ### The arguments read octet by octet -/

/-- For the sizes of the wheels the signed and the unsigned reading of a position refuse the same octets (R63). -/
theorem toInt_inRange_iff {size : Nat} (h : size ≤ 127) (b : Byte) :
    0 ≤ b.toInt ∧ b.toInt < (size : Int) ↔ b.toNat < size := by
  rw [BitVec.toInt_eq_toNat_cond]
  split <;> omega

theorem argumentsLegal_loadkey_iff {nw : Byte} {recs : List KeyRecord} (h : recs.length = nw.toNat) :
    argumentsLegal (0x01 :: nw :: recs.flatMap KeyRecord.octets) = true ↔ KeyLegal recs := by
  by_cases hsix : recs.length = 6
  · match recs, hsix with
    | [r1, r2, r3, r4, r5, r6], hsix =>
      have hpos (i : WheelIx) (b : Byte) := toInt_inRange_iff (i.size_le.trans (by decide)) b
      simp only [KeyLegal, hsix, true_and, forall_record_six_iff, hpos]
      simp [argumentsLegal, octet, ← h, WheelIx.all, recordNo, KeyRecord.octets, octetsOfPins]
  · simp [argumentsLegal, octet, KeyLegal, hsix, ← h]

theorem argumentsLegal_repos_iff {np : Byte} {ps : List Byte} (h : ps.length = np.toNat) :
    argumentsLegal (0x02 :: np :: ps) = true ↔ PositionsLegal ps := by
  by_cases hsix : ps.length = 6
  · match ps, hsix with
    | [b1, b2, b3, b4, b5, b6], hsix =>
      have hpos (i : WheelIx) (b : Byte) := toInt_inRange_iff (i.size_le.trans (by decide)) b
      simp only [PositionsLegal, hsix, true_and, forall_record_six_iff, hpos]
      simp [argumentsLegal, octet, ← h, WheelIx.all, recordNo]
  · simp [argumentsLegal, octet, PositionsLegal, hsix, ← h]

theorem argumentsLegal_message_iff {op lo hi : Byte} (hop : op = 0x10 ∨ op = 0x11) (cs : List Byte) :
    argumentsLegal (op :: lo :: hi :: cs) = true ↔ LettersOnly cs := by
  obtain rfl | rfl := hop <;> simp [argumentsLegal, octet]

theorem argumentsLegal_wLoad_iff (len pos q0 q1 q2 q3 : Byte) :
    argumentsLegal [0x21, len, pos, q0, q1, q2, q3] = true ↔
      1 ≤ len.toNat ∧ len.toNat ≤ 32 ∧ 0 ≤ pos.toInt ∧ pos.toInt < (len.toNat : Int) := by
  have hunsigned : argumentsLegal [0x21, len, pos, q0, q1, q2, q3] = true ↔
      1 ≤ len.toNat ∧ len.toNat ≤ 32 ∧ pos.toNat < len.toNat := by
    simp [argumentsLegal, octet, and_assoc]
  have hpos (hle : len.toNat ≤ 32) := toInt_inRange_iff (hle.trans (by decide)) pos
  rw [hunsigned]
  exact and_congr_right fun _ => and_congr_right fun hle => (hpos hle).symm

/-! ### The answer of a step -/

/-- An outcome answers a status on a port: OK by any response with that status, a fault by its status octet alone with the
state left as it was (R74, R169). -/
inductive Answers (s : State) (p : Port) : Byte → Host.Outcome State Fault Refusal → Prop
  | ok {t : State} {payload : List Byte} (h : t.response = some ⟨p, statusOk :: payload⟩) : Answers s p 0x00 (.next t)
  | fault (f : FaultKind) : Answers s p f.code (.next (s.raise p f))

theorem Answers.response {s : State} {p : Port} {status : Byte} {out : Host.Outcome State Fault Refusal}
    (h : Answers s p status out) : ∃ t payload, out = .next t ∧ t.response = some ⟨p, status :: payload⟩ := by
  cases h with
  | ok h => exact ⟨_, _, rfl, h⟩
  | fault f => exact ⟨_, [], rfl, rfl⟩

theorem Answers.eq_of_status_ne_ok {s : State} {p : Port} {status : Byte} {out : Host.Outcome State Fault Refusal}
    (h : Answers s p status out) (hne : status ≠ 0x00) : out = .next { s with response := some ⟨p, [status]⟩ } := by
  cases h with
  | ok => exact absurd rfl hne
  | fault f => rfl

section
variable {s : State} {p : Port} {octets : List Byte} {i : Instr}

theorem expectedStatus_of_noCommand (h : isCommandFrame p octets = false) : expectedStatus s p octets = 0x04 :=
  if_pos h

theorem expectedStatus_of_noKey (h : isCommandFrame p octets = true) (hneeds : needsKey octets = true)
    (hholds : holdsKey s p = false) : expectedStatus s p octets = 0x03 := by
  simp [expectedStatus, h, hneeds, hholds]

theorem expectedStatus_of_legal (h : isCommandFrame p octets = true) (hkey : needsKey octets = false ∨ holdsKey s p = true)
    (hlegal : argumentsLegal octets = true) : expectedStatus s p octets = 0x00 := by
  obtain hkey | hkey := hkey <;> simp [expectedStatus, h, hkey, hlegal]

theorem expectedStatus_of_illegal (h : isCommandFrame p octets = true)
    (hkey : needsKey octets = false ∨ holdsKey s p = true) (hlegal : ¬argumentsLegal octets = true) :
    expectedStatus s p octets = if octet octets 0 = 0x10 ∨ octet octets 0 = 0x11 then 0x02 else 0x01 := by
  obtain hkey | hkey := hkey <;> simp [expectedStatus, h, hkey, hlegal]

theorem answers_notKeyed (h : CommandFrame p octets i) (hneeds : needsKey octets = true) (hholds : holdsKey s p = false) :
    Answers s p (expectedStatus s p octets) (.next (s.raise p .notKeyed)) :=
  expectedStatus_of_noKey h.isCommandFrame hneeds hholds ▸ .fault .notKeyed

theorem answers_ok (h : CommandFrame p octets i) (hkey : needsKey octets = false ∨ holdsKey s p = true)
    (hlegal : argumentsLegal octets = true) {t : State} {payload : List Byte}
    (ht : t.response = some ⟨p, statusOk :: payload⟩) : Answers s p (expectedStatus s p octets) (.next t) :=
  expectedStatus_of_legal h.isCommandFrame hkey hlegal ▸ .ok ht

/-- A refusal by the command's own validation (R161, R162). -/
theorem answers_illegal (h : CommandFrame p octets i) (hkey : needsKey octets = false ∨ holdsKey s p = true)
    (hlegal : ¬argumentsLegal octets = true) {f : FaultKind}
    (hf : f.code = if octet octets 0 = 0x10 ∨ octet octets 0 = 0x11 then 0x02 else 0x01) :
    Answers s p (expectedStatus s p octets) (.next (s.raise p f)) := by
  rw [expectedStatus_of_illegal h.isCommandFrame hkey hlegal, ← hf]
  exact .fault f

end

theorem answers_loadkey {nw : Byte} {recs : List KeyRecord} (hlen : recs.length = nw.toNat) (s : State) :
    Answers s .engine (expectedStatus s .engine (0x01 :: nw :: recs.flatMap KeyRecord.octets))
      (exec (.loadkey recs) s) := by
  have hframe := CommandFrame.loadkey hlen
  have hlegal := argumentsLegal_loadkey_iff hlen
  by_cases hkey : KeyLegal recs
  · obtain ⟨e, -, hexec⟩ := exec_loadkey_of_legal hkey s
    rw [hexec]
    exact answers_ok hframe (.inl rfl) (hlegal.mpr hkey) rfl
  · rw [exec_loadkey_of_illegal hkey s]
    exact answers_illegal hframe (.inl rfl) (mt hlegal.mp hkey) rfl

theorem answers_repos {np : Byte} {ps : List Byte} (hlen : ps.length = np.toNat) (s : State) :
    Answers s .engine (expectedStatus s .engine (0x02 :: np :: ps)) (exec (.repos ps) s) := by
  have hframe := CommandFrame.repos hlen
  have hlegal := argumentsLegal_repos_iff hlen
  cases hk : s.engine.keyed with
  | false =>
    rw [exec_repos_of_unkeyed ps hk]
    exact answers_notKeyed hframe rfl hk
  | true =>
    by_cases hps : PositionsLegal ps
    · obtain ⟨pos, -, hexec⟩ := exec_repos_of_legal hk hps
      rw [hexec]
      exact answers_ok hframe (.inr hk) (hlegal.mpr hps) rfl
    · rw [exec_repos_of_illegal hk hps]
      exact answers_illegal hframe (.inr hk) (mt hlegal.mp hps) rfl

theorem exec_message_of_unkeyed {i : Instr} {cs : List Byte} {s : State} (hinstr : i = .enc cs ∨ i = .dec cs)
    (hk : s.engine.keyed = false) : exec i s = .next (s.raise .engine .notKeyed) := by
  obtain rfl | rfl := hinstr <;> exact congrArg _ (State.whenKeyed_of_unkeyed _ hk)

/-- ENC and DEC answer alike (R106). -/
theorem answers_message {op lo hi : Byte} {cs : List Byte} {i : Instr} (hop : op = 0x10 ∨ op = 0x11)
    (hinstr : i = .enc cs ∨ i = .dec cs) (h : CommandFrame .engine (op :: lo :: hi :: cs) i) (s : State) :
    Answers s .engine (expectedStatus s .engine (op :: lo :: hi :: cs)) (exec i s) := by
  have hneeds : needsKey (op :: lo :: hi :: cs) = true := by obtain rfl | rfl := hop <;> rfl
  have hlegal := argumentsLegal_message_iff (lo := lo) (hi := hi) hop cs
  cases hk : s.engine.keyed with
  | false =>
    rw [exec_message_of_unkeyed hinstr hk]
    exact answers_notKeyed h hneeds hk
  | true =>
    rw [exec_message hinstr hk]
    by_cases hcs : LettersOnly cs
    · rw [message_of_letters hcs, okMessage_eq]
      exact answers_ok h (.inr hk) (hlegal.mpr hcs) rfl
    · rw [message_of_not_letters hcs]
      exact answers_illegal h (.inr hk) (mt hlegal.mp hcs) (if_pos hop).symm

theorem answers_wLoad (len pos q0 q1 q2 q3 : Byte) (s : State) :
    Answers s .wheel (expectedStatus s .wheel [0x21, len, pos, q0, q1, q2, q3])
      (exec (.wLoad len pos (pinsOfOctets q0 q1 q2 q3)) s) := by
  have hframe := CommandFrame.wLoad len pos q0 q1 q2 q3
  have hlegal := argumentsLegal_wLoad_iff len pos q0 q1 q2 q3
  rw [exec_wLoad]
  split
  case isTrue harguments => exact answers_ok hframe (.inl rfl) (hlegal.mpr harguments) rfl
  case isFalse harguments => exact answers_illegal hframe (.inl rfl) (mt hlegal.mp harguments) rfl

theorem answers_wPeek (off : Byte) (s : State) :
    Answers s .wheel (expectedStatus s .wheel [0x22, off]) (exec (.wPeek off) s) := by
  cases hl : s.wheel.loaded with
  | false => exact exec_wPeek_of_unloaded off hl ▸ answers_notKeyed (.wPeek off) rfl hl
  | true => exact exec_wPeek_of_loaded off hl ▸ answers_ok (.wPeek off) (.inr hl) rfl rfl

theorem answers_wStep (s : State) : Answers s .wheel (expectedStatus s .wheel [0x23]) (exec .wStep s) := by
  cases hl : s.wheel.loaded with
  | false => exact exec_wStep_of_unloaded hl ▸ answers_notKeyed .wStep rfl hl
  | true => exact exec_wStep_of_loaded hl ▸ answers_ok .wStep (.inr hl) rfl rfl

/-- Every command answers the status of R167. -/
theorem CommandFrame.answers {p : Port} {octets : List Byte} {i : Instr} (h : CommandFrame p octets i) (s : State) :
    Answers s p (expectedStatus s p octets) (exec i s) := by
  cases h with
  | loadkey h => exact answers_loadkey h s
  | repos h => exact answers_repos h s
  | enc h => exact answers_message (.inl rfl) (.inl rfl) (.enc h) s
  | dec h => exact answers_message (.inr rfl) (.inr rfl) (.dec h) s
  | wLoad len pos q0 q1 q2 q3 => exact answers_wLoad len pos q0 q1 q2 q3 s
  | wPeek off => exact answers_wPeek off s
  | wStep => exact answers_wStep s

/-- Every frame is answered by the tests in their order (R167); a fault leaves the state from which the frame was taken. -/
theorem step_answers {s : State} {p : Port} {octets : List Byte} {rest : List Input}
    (h : s.inputs = .frame p octets :: rest) :
    Answers (s.withInputs rest) p (expectedStatus s p octets) (step s) := by
  obtain ⟨i, hframe⟩ | ⟨hnone, e, hdecode⟩ := commandOrRefused p octets
  · rw [step_command h hframe.decode_eq]
    exact hframe.answers (s.withInputs rest)
  · rw [step_noCommand h hdecode, expectedStatus_of_noCommand hnone]
    exact .fault .badCommand

/-- A step that answers a fault changes nothing but the response, whose status is that of R167 (R169). -/
theorem step_of_fault {s : State} {p : Port} {octets : List Byte} {rest : List Input}
    (h : s.inputs = .frame p octets :: rest) {f : Byte} (hf : expectedStatus s p octets = f) (hne : f ≠ 0x00) :
    step s = .next { s with inputs := rest, response := some ⟨p, [f]⟩ } := by
  subst hf
  exact (step_answers h).eq_of_status_ne_ok hne

/-- The response a step leaves begins with the status of R167. -/
theorem expectedStatus_of_response {s t : State} {p : Port} {octets payload : List Byte} {rest : List Input} {f : Byte}
    (h : s.inputs = .frame p octets :: rest) (hstep : step s = .next t) (ht : t.response = some ⟨p, f :: payload⟩) :
    expectedStatus s p octets = f := by
  obtain ⟨u, expected, hu, hresponse⟩ := (step_answers h).response
  obtain rfl : t = u := by simpa [hstep] using hu
  simp only [hresponse, Option.some.injEq, Response.mk.injEq, List.cons.injEq] at ht
  obtain ⟨-, hstatus, -⟩ := ht
  exact hstatus

/-! ### The last response -/

/-- No command reads the last response, and each overwrites it (R28, R60). -/
theorem CommandFrame.exec_withResponse {p : Port} {octets : List Byte} {i : Instr} (h : CommandFrame p octets i)
    (s : State) (r : Option Response) : exec i { s with response := r } = exec i s := by
  cases h with
  | loadkey | repos | enc | dec | wLoad | wPeek | wStep => rfl

/-- A step does not depend on the last response. -/
theorem step_withResponse (s : State) (r : Option Response) : step { s with response := r } = step s := by
  obtain ⟨engine, wheel, inputs, response, micro⟩ := s
  match inputs with
  | [] => rfl
  | .reset u :: rest => cases u <;> rfl
  | .frame p octets :: rest =>
    obtain ⟨i, hframe⟩ | ⟨-, e, hdecode⟩ := commandOrRefused p octets
    · have hstep r := step_command (s := ⟨engine, wheel, .frame p octets :: rest, r, micro⟩) rfl hframe.decode_eq
      have hexec := hframe.exec_withResponse ⟨engine, wheel, rest, response, micro⟩ r
      exact (hstep r).trans (hexec.trans (hstep response).symm)
    · have hstep r := step_noCommand (s := ⟨engine, wheel, .frame p octets :: rest, r, micro⟩) rfl hdecode
      exact (hstep r).trans (hstep response).symm

/-! ### The statements -/

/-- Settles O9: the frame is the first of the tests. -/
theorem aFrameThatIsNoCommandAnswersBadCommand : Obligations.AFrameThatIsNoCommandAnswersBadCommand :=
  fun _ _ _ _ hinputs hnone => step_of_fault hinputs (expectedStatus_of_noCommand hnone) (by decide)

/-- Settles O45: each command's outcomes are the branches of `expectedStatus`. -/
theorem theStatusFollowsTheOrderOfTheTests : Obligations.TheStatusFollowsTheOrderOfTheTests :=
  fun _ _ _ _ hinputs => (step_answers hinputs).response

/-- Settles O46: the key is the second of the tests. -/
theorem aUnitWithoutAKeyRefusesAllButLoading : Obligations.AUnitWithoutAKeyRefusesAllButLoading :=
  fun _ _ _ _ hinputs hcommand hneeds hholds =>
    step_of_fault hinputs (expectedStatus_of_noKey hcommand hneeds hholds) (by decide)

/-- Settles O47: the status answered is that of the tests, and a test that fails leaves the state as it was. -/
theorem aFaultChangesNoState : Obligations.AFaultChangesNoState := by
  intro s t p octets payload rest f hinputs hstep hresponse hne
  have hfault := step_of_fault hinputs (expectedStatus_of_response hinputs hstep hresponse) hne
  simpa [hstep] using hfault

/-- Settles O48: after a fault only the response differs, which no step reads. -/
theorem afterAFaultTheNextInputActsAsIfItHadNotBeen : Obligations.AfterAFaultTheNextInputActsAsIfItHadNotBeen := by
  intro s t p octets payload x rest f hinputs hstep hresponse hne
  rw [aFaultChangesNoState s t p octets payload (x :: rest) f hinputs hstep hresponse hne]
  exact step_withResponse { s with inputs := x :: rest } _

/-- Settles O24: a message with a bad character is refused before its first letter. -/
theorem aMessageWithABadCharacterStepsNoWheel : Obligations.AMessageWithABadCharacterStepsNoWheel := by
  intro cs s i hi hk hbad
  rw [exec_message hi hk, message_of_not_letters hbad]
  rfl

end Sys2Proof.Machine
end

section
/-! SUPPORT. A port's decoder and the encoder against the command frames (R66 to R72): decode and encode are inverse to each
other on the well-formed commands of a port; and the statements of the family 'other' on decoding and encoding. -/

namespace Sys2Proof.Machine

open Sys2Proof.Safety

/-! ### The decoder finds the command frames -/

theorem decode_eq_ok_iff {p : Port} {octets : List Byte} {i : Instr} :
    decode p octets = .ok i ↔ CommandFrame p octets i := by
  refine ⟨fun hdecode => ?_, CommandFrame.decode_eq⟩
  obtain ⟨j, hframe⟩ | ⟨-, e, herror⟩ := commandOrRefused p octets
  · obtain rfl : j = i := by simpa [hframe.decode_eq] using hdecode
    exact hframe
  · simp [herror] at hdecode

/-- A count octet is the count of what follows it (R62). -/
theorem ofNat_of_eq_toNat {n : Nat} {b : Byte} (h : n = b.toNat) : BitVec.ofNat 8 n = b := by
  rw [h, BitVec.ofNat_toNat, BitVec.setWidth_eq]

theorem CommandFrame.encode_eq {p : Port} {octets : List Byte} {i : Instr} (h : CommandFrame p octets i) :
    encode i = some octets := by
  cases h with
  | loadkey h | repos h => simp only [encode, ofNat_of_eq_toNat h]
  | enc h | dec h => simp only [encode, h, octetsOfCount_countOfOctets, List.cons_append, List.nil_append]
  | wLoad len pos q0 q1 q2 q3 => simp only [encode, octetsOfPins_pinsOfOctets]
  | wPeek | wStep => rfl

theorem CommandFrame.port_eq {p : Port} {octets : List Byte} {i : Instr} (h : CommandFrame p octets i) :
    i.port = some p := by
  cases h <;> rfl

theorem CommandFrame.wellFormed {p : Port} {octets : List Byte} {i : Instr} (h : CommandFrame p octets i) :
    i.wellFormed = true := by
  cases h with
  | @loadkey nw recs h | @repos nw ps h =>
    have hcount := nw.isLt
    simp only [Instr.wellFormed, h, decide_eq_true_eq]
    omega
  | @enc lo hi cs h | @dec lo hi cs h =>
    have hcount := countOfOctets_lt lo hi
    simp only [Instr.wellFormed, h, decide_eq_true_eq, Config.maxLen]
    omega
  | wLoad | wPeek | wStep => rfl

/-- The frame of a well-formed command of a port is that command's: its count fits the count field (R63, R8). -/
theorem commandFrame_of_encode {p : Port} {octets : List Byte} {i : Instr} (hwf : i.wellFormed = true)
    (hport : i.port = some p) (hencode : encode i = some octets) : CommandFrame p octets i := by
  cases i with
  | loadkey recs | repos recs =>
    cases hport
    cases hencode
    simp only [Instr.wellFormed, decide_eq_true_eq] at hwf
    constructor
    rw [BitVec.toNat_ofNat, Nat.mod_eq_of_lt (by omega)]
  | enc cs | dec cs =>
    cases hport
    cases hencode
    simp only [Instr.wellFormed, decide_eq_true_eq, Config.maxLen] at hwf
    constructor
    exact (countOfOctets_of_count (n := cs.length) (by omega)).symm
  | wLoad len pos pins =>
    cases hport
    cases hencode
    have hframe := CommandFrame.wLoad len pos (pins.extractLsb' 0 8) (pins.extractLsb' 8 8) (pins.extractLsb' 16 8)
      (pins.extractLsb' 24 8)
    rwa [pinsOfOctets_octetsOfPins] at hframe
  | wPeek | wStep =>
    cases hport
    cases hencode
    constructor
  | char | stepall | prestep | poststep | prn | sub => cases hport

/-! ### The statements -/

/-- Settles O10: a well-formed command's frame is a command frame, which the decoder finds. -/
theorem decodeOfEncodeIsTheCommand : Obligations.DecodeOfEncodeIsTheCommand :=
  fun _ _ _ hwf hport hencode => (commandFrame_of_encode hwf hport hencode).decode_eq

/-- Settles O11: what a port decodes is a command frame, whose octets the encoder writes. -/
theorem encodeOfDecodeIsTheFrame : Obligations.EncodeOfDecodeIsTheFrame := by
  intro i p octets hdecode
  have hframe := decode_eq_ok_iff.mp hdecode
  exact ⟨hframe.encode_eq, hframe.port_eq, hframe.wellFormed⟩

/-- Settles O8: the test of R164 holds of the command frames and fails where the port refuses. -/
theorem aPortDecodesExactlyItsCommandFrames : Obligations.APortDecodesExactlyItsCommandFrames := by
  intro p octets
  constructor
  · rintro ⟨i, hdecode⟩
    exact (decode_eq_ok_iff.mp hdecode).isCommandFrame
  · intro hcommand
    obtain ⟨i, hframe⟩ | ⟨hnone, -⟩ := commandOrRefused p octets
    · exact ⟨i, hframe.decode_eq⟩
    · simp [hnone] at hcommand

/-- Settles O7: the state from which the frame is taken is the same state with the rest of its inputs. -/
theorem aStepRunsTheDecodedCommand : Obligations.AStepRunsTheDecodedCommand :=
  fun _ _ _ _ _ hinputs hdecode _ => step_command hinputs hdecode

/-- Settles O13: each frame is decoded by evaluation. -/
theorem theWorkedEncodingsDecode : Obligations.TheWorkedEncodingsDecode :=
  ⟨rfl, rfl, rfl, rfl, rfl, rfl, rfl, rfl, rfl⟩

end Sys2Proof.Machine
end

section
/-! SUPPORT. What each command and each micro-operation can leave, said once: the one inversion from which come the legal
states (R22, R30), the payloads (R74), what each leaves unchanged, and the statements of the family 'other' on these. -/

namespace Sys2Proof.Machine

open Sys2Proof.Safety

/-! ### The outcomes of a command -/

/-- What a message of letters leaves: the positions T applied as often as it has letters, and its answer (R104, R126). -/
def State.afterLetters (s : State) (cs : List Byte) : State :=
  (s.withEngine { s.engine with pos := charTn s.engine.pins s.engine.pos cs.length }).respondOk .engine
    (octetsOfCount cs.length ++ s.engine.cipher cs)

/-- What a command can leave: the state with a fault raised on its port, or, its tests passed, its own result (R167). -/
inductive CommandOutcome (s : State) : Instr → State → Prop
  | fault {i : Instr} {p : Port} (f : FaultKind) (hport : i.port = some p) : CommandOutcome s i (s.raise p f)
  | loadkey {recs : List KeyRecord} {e : Engine} (hkey : keyOf recs = some e) :
      CommandOutcome s (.loadkey recs) ((s.withEngine e).respondOk .engine [])
  | repos {ps : List Byte} {pos : Positions} (hkeyed : s.engine.keyed = true) (hpos : positionsOf ps = some pos) :
      CommandOutcome s (.repos ps) ((s.withEngine { s.engine with pos := pos }).respondOk .engine [])
  | enc {cs : List Byte} (hkeyed : s.engine.keyed = true) (hletters : LettersOnly cs) :
      CommandOutcome s (.enc cs) (s.afterLetters cs)
  | dec {cs : List Byte} (hkeyed : s.engine.keyed = true) (hletters : LettersOnly cs) :
      CommandOutcome s (.dec cs) (s.afterLetters cs)
  | wLoad {len pos : Byte} {v : BitVec 32} (hlen : 1 ≤ len.toNat ∧ len.toNat ≤ 32)
      (hpos : 0 ≤ pos.toInt ∧ pos.toInt < (len.toNat : Int)) :
      CommandOutcome s (.wLoad len pos v) ((s.withWheel (wheelOfLoad len pos v)).respondOk .wheel [])
  | wPeek {off : Byte} (hloaded : s.wheel.loaded = true) :
      CommandOutcome s (.wPeek off) (s.respondOk .wheel [pinOctet (s.wheel.peek off.toInt)])
  | wStep (hloaded : s.wheel.loaded = true) :
      CommandOutcome s .wStep ((s.withWheel s.wheel.step).respondOk .wheel [])

theorem exec_loadkey_outcome (recs : List KeyRecord) (s : State) :
    ∃ t, exec (.loadkey recs) s = .next t ∧ CommandOutcome s (.loadkey recs) t := by
  by_cases hlegal : KeyLegal recs
  · obtain ⟨e, he, hexec⟩ := exec_loadkey_of_legal hlegal s
    exact ⟨_, hexec, .loadkey he⟩
  · exact ⟨_, exec_loadkey_of_illegal hlegal s, .fault _ rfl⟩

theorem exec_repos_outcome (ps : List Byte) (s : State) :
    ∃ t, exec (.repos ps) s = .next t ∧ CommandOutcome s (.repos ps) t := by
  cases hk : s.engine.keyed with
  | false => exact ⟨_, exec_repos_of_unkeyed ps hk, .fault _ rfl⟩
  | true =>
    by_cases hlegal : PositionsLegal ps
    · obtain ⟨pos, hpos, hexec⟩ := exec_repos_of_legal hk hlegal
      exact ⟨_, hexec, .repos hk hpos⟩
    · exact ⟨_, exec_repos_of_illegal hk hlegal, .fault _ rfl⟩

theorem exec_message_outcome {i : Instr} {cs : List Byte} (hi : i = .enc cs ∨ i = .dec cs) (s : State) :
    ∃ t, exec i s = .next t ∧ CommandOutcome s i t := by
  have hport : i.port = some .engine := by obtain rfl | rfl := hi <;> rfl
  cases hk : s.engine.keyed with
  | false => exact ⟨_, exec_message_of_unkeyed hi hk, .fault _ hport⟩
  | true =>
    by_cases hletters : LettersOnly cs
    · have hexec := exec_message_of_letters hi hk hletters
      rw [okMessage_eq] at hexec
      refine ⟨_, hexec, ?_⟩
      obtain rfl | rfl := hi
      · exact .enc hk hletters
      · exact .dec hk hletters
    · exact ⟨_, (exec_message hi hk).trans (congrArg _ (message_of_not_letters hletters s)), .fault _ hport⟩

theorem exec_wLoad_outcome (len pos : Byte) (v : BitVec 32) (s : State) :
    ∃ t, exec (.wLoad len pos v) s = .next t ∧ CommandOutcome s (.wLoad len pos v) t := by
  refine ⟨_, exec_wLoad len pos v s, ?_⟩
  split
  case isTrue hlegal =>
    obtain ⟨hlow, hhigh, hpos⟩ := hlegal
    exact .wLoad ⟨hlow, hhigh⟩ hpos
  case isFalse => exact .fault _ rfl

theorem exec_wPeek_outcome (off : Byte) (s : State) :
    ∃ t, exec (.wPeek off) s = .next t ∧ CommandOutcome s (.wPeek off) t := by
  cases hl : s.wheel.loaded with
  | false => exact ⟨_, exec_wPeek_of_unloaded off hl, .fault _ rfl⟩
  | true => exact ⟨_, exec_wPeek_of_loaded off hl, .wPeek hl⟩

theorem exec_wStep_outcome (s : State) : ∃ t, exec .wStep s = .next t ∧ CommandOutcome s .wStep t := by
  cases hl : s.wheel.loaded with
  | false => exact ⟨_, exec_wStep_of_unloaded hl, .fault _ rfl⟩
  | true => exact ⟨_, exec_wStep_of_loaded hl, .wStep hl⟩

theorem exec_command_outcome {i : Instr} {p : Port} (hport : i.port = some p) (s : State) :
    ∃ t, exec i s = .next t ∧ CommandOutcome s i t := by
  cases i with
  | loadkey recs => exact exec_loadkey_outcome recs s
  | repos ps => exact exec_repos_outcome ps s
  | enc cs => exact exec_message_outcome (.inl rfl) s
  | dec cs => exact exec_message_outcome (.inr rfl) s
  | wLoad len pos v => exact exec_wLoad_outcome len pos v s
  | wPeek off => exact exec_wPeek_outcome off s
  | wStep => exact exec_wStep_outcome s
  | char | stepall | prestep | poststep | prn | sub => cases hport

theorem commandOutcome_of_exec {i : Instr} {p : Port} {s t : State} (hport : i.port = some p) (hexec : exec i s = .next t) :
    CommandOutcome s i t := by
  obtain ⟨u, hu, houtcome⟩ := exec_command_outcome hport s
  obtain rfl : u = t := by simpa [hu] using hexec
  exact houtcome

/-! ### What a step can do -/

/-- What a step can leave, by what is delivered next (R9): nothing, a reset of one unit, BadCommand, or what its command
leaves. -/
inductive StepOutcome (s : State) : State → Prop
  | idle (hinputs : s.inputs = []) : StepOutcome s s.idle
  | reset {u : Port} {rest : List Input} (hinputs : s.inputs = .reset u :: rest) :
      StepOutcome s ((s.withInputs rest).resetUnit u)
  | badCommand {p : Port} {octets : List Byte} {rest : List Input} (hinputs : s.inputs = .frame p octets :: rest)
      (hnone : isCommandFrame p octets = false) : StepOutcome s ((s.withInputs rest).raise p .badCommand)
  | command {p : Port} {octets : List Byte} {rest : List Input} {i : Instr} {t : State}
      (hinputs : s.inputs = .frame p octets :: rest) (hframe : CommandFrame p octets i)
      (houtcome : CommandOutcome (s.withInputs rest) i t) : StepOutcome s t

theorem stepOutcome_of_step {s t : State} (hstep : step s = .next t) : StepOutcome s t := by
  match hinputs : s.inputs with
  | [] =>
    rw [step_idle hinputs] at hstep
    cases hstep
    exact .idle hinputs
  | .reset u :: rest =>
    rw [step_reset hinputs] at hstep
    cases hstep
    exact .reset hinputs
  | .frame p octets :: rest =>
    obtain ⟨i, hframe⟩ | ⟨hnone, e, hdecode⟩ := commandOrRefused p octets
    · rw [step_command hinputs hframe.decode_eq] at hstep
      exact .command hinputs hframe (commandOutcome_of_exec hframe.port_eq hstep)
    · rw [step_noCommand hinputs hdecode] at hstep
      cases hstep
      exact .badCommand hinputs hnone

/-! ### What a command leaves unchanged -/

theorem CommandOutcome.inputs_micro {s t : State} {i : Instr} (h : CommandOutcome s i t) :
    t.inputs = s.inputs ∧ t.micro = s.micro := by
  cases h <;> exact ⟨rfl, rfl⟩

theorem CommandOutcome.wheel_eq {s t : State} {i : Instr} (h : CommandOutcome s i t) (hport : i.port = some .engine) :
    t.wheel = s.wheel := by
  cases h with
  | fault | loadkey | repos | enc | dec => rfl
  | wLoad | wPeek | wStep => cases hport

theorem CommandOutcome.engine_eq {s t : State} {i : Instr} (h : CommandOutcome s i t) (hport : i.port = some .wheel) :
    t.engine = s.engine := by
  cases h with
  | loadkey | repos | enc | dec => cases hport
  | fault | wLoad | wPeek | wStep => rfl

/-- The flag and the pins are LOADKEY's alone to write (R26, R32). -/
theorem CommandOutcome.keyed_pins_eq {s t : State} {i : Instr} (h : CommandOutcome s i t) :
    (∃ recs e, i = .loadkey recs ∧ keyOf recs = some e ∧ t = (s.withEngine e).respondOk .engine [])
      ∨ (t.engine.keyed = s.engine.keyed ∧ t.engine.pins = s.engine.pins) := by
  cases h with
  | loadkey hkey => exact .inl ⟨_, _, rfl, hkey, rfl⟩
  | fault | repos | enc | dec | wLoad | wPeek | wStep => exact .inr ⟨rfl, rfl⟩

/-- W.LOAD apart, a wheel command writes no more of the unit than its position (R92, R93). -/
theorem CommandOutcome.loaded_size_pins_eq {s t : State} {i : Instr} (h : CommandOutcome s i t)
    (hi : ∀ len pos v, i ≠ .wLoad len pos v) :
    t.wheel.loaded = s.wheel.loaded ∧ t.wheel.size = s.wheel.size ∧ t.wheel.pins = s.wheel.pins := by
  cases h with
  | wLoad => exact absurd rfl (hi _ _ _)
  | fault | loadkey | repos | enc | dec | wPeek | wStep => exact ⟨rfl, rfl, rfl⟩

/-- The rings are constants, and the space of the Wheel unit is no register of the engine (R40). -/
theorem State.memRead_of_wheel_eq {s t : State} (h : t.wheel = s.wheel) {sp : Space} (hsp : ∀ i, sp ≠ .pin i) (j : Nat) :
    t.memRead sp j = s.memRead sp j := by
  cases sp with
  | pin i => exact absurd rfl (hsp i)
  | inner | outer => rfl
  | wheelPin =>
    have hcells : t.cells .wheelPin = s.cells .wheelPin := by rw [State.cells, State.cells, h]
    simp only [State.memRead, hcells, h]

/-- The rings are constants, and the pin spaces are no registers of the Wheel unit (R40). -/
theorem State.memRead_of_engine_eq {s t : State} (h : t.engine = s.engine) {sp : Space} (hsp : sp ≠ .wheelPin) (j : Nat) :
    t.memRead sp j = s.memRead sp j := by
  cases sp with
  | wheelPin => exact absurd rfl hsp
  | inner | outer => rfl
  | pin i =>
    simp only [State.memRead, h]
    rfl

/-- Settles O54: only LOADKEY writes the flag and the pins, and no engine command writes the Wheel unit. -/
theorem engineCommandsLeaveTheRestUnchanged : Obligations.EngineCommandsLeaveTheRestUnchanged := by
  intro s t i hexec
  refine ⟨?loadkey, ?positions⟩
  case loadkey =>
    rintro ⟨recs, rfl⟩
    have houtcome := commandOutcome_of_exec rfl hexec
    obtain ⟨hinputs, hmicro⟩ := houtcome.inputs_micro
    have hwheel := houtcome.wheel_eq rfl
    exact ⟨hwheel, hinputs, hmicro, fun sp j hsp => State.memRead_of_wheel_eq hwheel hsp j⟩
  case positions =>
    rintro ⟨xs, hi⟩
    have hport : i.port = some .engine := by obtain rfl | rfl | rfl := hi <;> rfl
    have houtcome := commandOutcome_of_exec hport hexec
    obtain ⟨hinputs, hmicro⟩ := houtcome.inputs_micro
    have hwheel := houtcome.wheel_eq hport
    obtain ⟨recs, e, rfl, -⟩ | ⟨hkeyed, hpins⟩ := houtcome.keyed_pins_eq
    · simp at hi
    · exact ⟨hkeyed, hpins, hwheel, hinputs, hmicro,
        State.memRead_congr hpins (congrArg WheelUnit.size hwheel) (congrArg WheelUnit.pins hwheel)⟩

/-- Settles O55: no wheel command writes the engine, and only W.LOAD writes more of the unit than its position. -/
theorem wheelCommandsLeaveTheRestUnchanged : Obligations.WheelCommandsLeaveTheRestUnchanged := by
  intro s t i hexec
  refine ⟨?wLoad, ?wPeek, ?wStep⟩
  case wLoad =>
    rintro ⟨len, pos, v, rfl⟩
    have houtcome := commandOutcome_of_exec rfl hexec
    obtain ⟨hinputs, hmicro⟩ := houtcome.inputs_micro
    have hengine := houtcome.engine_eq rfl
    exact ⟨hengine, hinputs, hmicro, fun sp j hsp => State.memRead_of_engine_eq hengine hsp j⟩
  case wPeek =>
    rintro ⟨off, rfl⟩
    cases commandOutcome_of_exec rfl hexec with
    | fault | wPeek => exact ⟨rfl, rfl, rfl, rfl, State.memRead_congr rfl rfl rfl⟩
  case wStep =>
    rintro rfl
    have houtcome := commandOutcome_of_exec rfl hexec
    obtain ⟨hinputs, hmicro⟩ := houtcome.inputs_micro
    have hengine := houtcome.engine_eq rfl
    obtain ⟨hloaded, hsize, hpins⟩ := houtcome.loaded_size_pins_eq (by simp)
    exact ⟨hengine, hloaded, hsize, hpins, hinputs, hmicro,
      State.memRead_congr (congrArg Engine.pins hengine) hsize hpins⟩

/-- Settles O50: of all a step can do, an accepted LOADKEY and the engine's reset input are what writes the flag or a pin. -/
theorem onlyLoadkeyAndResetChangeTheFlagOrThePins : Obligations.OnlyLoadkeyAndResetChangeTheFlagOrThePins := by
  intro s t hstep hchange
  cases stepOutcome_of_step hstep with
  | idle | badCommand => simp at hchange
  | @reset u rest hinputs =>
    cases u with
    | engine => exact .inr ⟨rest, hinputs, rfl⟩
    | wheel => simp at hchange
  | command hinputs hframe houtcome =>
    obtain ⟨recs, e, rfl, hkey, rfl⟩ | ⟨hkeyed, hpins⟩ := houtcome.keyed_pins_eq
    · cases hframe
      exact .inl ⟨_, _, hinputs, rfl, keyed_of_keyOf hkey⟩
    · simp [hkeyed, hpins] at hchange

/-! ### The micro-operations -/

/-- A micro-operation writes positions and the sequencer's value, and each of these only where its rule says (R120, R130 to
R132, R140, R150). -/
theorem exec_microOperation {i : Instr} (hport : i.port = none) (s : State) :
    ∃ pos micro, exec i s = .next { s with engine := { s.engine with pos := pos }, micro := micro }
      ∧ (i = .stepall ∨ i = .prestep ∨ i = .poststep → micro = s.micro)
      ∧ (i = .prn ∨ (∃ c digit, i = .sub c digit) → pos = s.engine.pos) := by
  cases i with
  | loadkey | repos | enc | dec | wLoad | wPeek | wStep => cases hport
  | char c => exact ⟨_, _, exec_char c s, by simp, by simp⟩
  | stepall => exact ⟨_, _, exec_stepall s, fun _ => rfl, by simp⟩
  | prestep => exact ⟨_, _, exec_prestep s, fun _ => rfl, by simp⟩
  | poststep => exact ⟨_, _, (exec_poststep s).trans (exec_stepall s), fun _ => rfl, by simp⟩
  | prn => exact ⟨_, _, exec_prn s, by simp, fun _ => rfl⟩
  | sub c digit => exact ⟨_, _, exec_sub c digit s, by simp, fun _ => rfl⟩

/-- Settles O56: what a micro-operation writes is said once, and no address space reads it. -/
theorem microOperationsLeaveTheRestUnchanged : Obligations.MicroOperationsLeaveTheRestUnchanged := by
  intro s t i hport hexec
  obtain ⟨pos, micro, hnext, hmicro, hpos⟩ := exec_microOperation hport s
  rw [hnext] at hexec
  cases hexec
  refine ⟨rfl, rfl, rfl, rfl, rfl, State.memRead_congr rfl rfl rfl, hmicro, fun hi => ?_⟩
  rw [hpos hi]

/-! ### The legal states -/

theorem exists_record_of_keyLegal {recs : List KeyRecord} (h : KeyLegal recs) (i : WheelIx) :
    ∃ r, recs[recordNo i]? = some r ∧ r.len.toNat = i.size ∧ 0 ≤ r.pos.toInt ∧ r.pos.toInt < (i.size : Int) := by
  obtain ⟨hsix, hrecords⟩ := h
  have hrecord : recordNo i < recs.length := by rw [hsix]; cases i <;> decide
  have hr := List.getElem?_eq_getElem hrecord
  exact ⟨_, hr, hrecords i _ hr⟩

theorem exists_position_of_positionsLegal {ps : List Byte} (h : PositionsLegal ps) (i : WheelIx) :
    ∃ b, ps[recordNo i]? = some b ∧ 0 ≤ b.toInt ∧ b.toInt < (i.size : Int) := by
  obtain ⟨hsix, hpositions⟩ := h
  have hrecord : recordNo i < ps.length := by rw [hsix]; cases i <;> decide
  have hb := List.getElem?_eq_getElem hrecord
  exact ⟨_, hb, hpositions i _ hb⟩

theorem inRange_of_keyOf {recs : List KeyRecord} {e : Engine} (h : keyOf recs = some e) : InRange e.pos := by
  have hlegal : KeyLegal recs := (keyOf_isSome_iff recs).mp (by rw [h]; rfl)
  intro i _
  obtain ⟨r, hr, -, h0, hlt⟩ := exists_record_of_keyLegal hlegal i
  have hvalue := posValue_toNat_of_lt_size h0 hlt
  rw [get_of_keyOf h hr]
  omega

theorem inRange_of_positionsOf {ps : List Byte} {pos : Positions} (h : positionsOf ps = some pos) : InRange pos := by
  have hlegal : PositionsLegal ps := (positionsOf_isSome_iff ps).mp (by rw [h]; rfl)
  intro i _
  obtain ⟨b, hb, h0, hlt⟩ := exists_position_of_positionsLegal hlegal i
  have hvalue := posValue_toNat_of_lt_size h0 hlt
  rw [get_of_positionsOf h hb]
  omega

theorem inRange_charTn {k : PinRegs} {p : Positions} (h : InRange p) (n : Nat) : InRange (charTn k p n) := by
  cases n with
  | zero => exact h
  | succ n =>
    intro i _
    rw [charTn, charT_get_toNat]
    exact Nat.mod_lt _ i.size_pos

/-- The bits at and above the size are written 0 (R73, V6). -/
theorem pinsBelow_toNat_lt {size : Nat} (h : size ≤ 32) (v : BitVec 32) : (pinsBelow size v).toNat < 2 ^ size := by
  have hpow : 2 ^ size ≤ 2 ^ 32 := Nat.pow_le_pow_right (by decide) h
  have hpos : 0 < 2 ^ size := Nat.two_pow_pos size
  rw [pinsBelow, BitVec.toNat_and, BitVec.toNat_ofNat, Nat.mod_eq_of_lt (by omega), Nat.and_two_pow_sub_one_eq_mod]
  exact Nat.mod_lt _ hpos

theorem wheelLegal_wheelOfLoad {len pos : Byte} (v : BitVec 32) (hlen : 1 ≤ len.toNat ∧ len.toNat ≤ 32)
    (hpos : 0 ≤ pos.toInt ∧ pos.toInt < (len.toNat : Int)) : WheelLegal (wheelOfLoad len pos v) := by
  intro _
  have hsize : (wheelOfLoad len pos v).size.toNat = len.toNat := by
    simp only [wheelOfLoad, BitVec.toNat_setWidth]
    omega
  have hvalue : ((posValue pos).toNat : Int) = pos.toInt := posValue_toNat hpos.1 (by omega)
  rw [hsize]
  refine ⟨hlen.1, hlen.2, ?_, pinsBelow_toNat_lt hlen.2 v⟩
  simp only [wheelOfLoad]
  omega

theorem wheelLegal_step {w : WheelUnit} (h : WheelLegal w) : WheelLegal w.step := by
  intro hloaded
  obtain ⟨hpos, hle, -, hpins⟩ := h hloaded
  refine ⟨hpos, hle, ?_, hpins⟩
  rw [WheelUnit.step_pos_toNat hpos hle]
  exact Nat.mod_lt _ hpos

theorem CommandOutcome.legal {s t : State} {i : Instr} (h : CommandOutcome s i t) (hs : Legal s) : Legal t := by
  obtain ⟨hengine, hwheel, hmicro⟩ := hs
  cases h with
  | fault | wPeek => exact ⟨hengine, hwheel, hmicro⟩
  | loadkey hkey => exact ⟨fun _ => inRange_of_keyOf hkey, hwheel, hmicro⟩
  | repos _ hpos => exact ⟨fun _ => inRange_of_positionsOf hpos, hwheel, hmicro⟩
  | enc hkeyed | dec hkeyed => exact ⟨fun _ => inRange_charTn (hengine hkeyed) _, hwheel, hmicro⟩
  | wLoad hlen hpos => exact ⟨hengine, wheelLegal_wheelOfLoad _ hlen hpos, hmicro⟩
  | wStep => exact ⟨hengine, wheelLegal_step hwheel, hmicro⟩

theorem engineLegal_reset : EngineLegal Engine.reset := fun hkeyed => nomatch hkeyed

theorem wheelLegal_reset : WheelLegal WheelUnit.reset := fun hloaded => nomatch hloaded

/-- Settles O2: neither unit holds a key after reset. -/
theorem resetIsLegal : Obligations.ResetIsLegal := ⟨engineLegal_reset, wheelLegal_reset, rfl⟩

/-- Settles O3: each thing a step can do keeps the three parts of the invariant. -/
theorem everyStepKeepsTheStateLegal : Obligations.EveryStepKeepsTheStateLegal := by
  intro s t hlegal hstep
  obtain ⟨hengine, hwheel, hmicro⟩ := hlegal
  cases stepOutcome_of_step hstep with
  | idle | badCommand => exact ⟨hengine, hwheel, hmicro⟩
  | @reset u =>
    cases u with
    | engine => exact ⟨engineLegal_reset, hwheel, rfl⟩
    | wheel => exact ⟨hengine, wheelLegal_reset, hmicro⟩
  | command _ _ houtcome => exact houtcome.legal ⟨hengine, hwheel, hmicro⟩

/-! ### The responses -/

theorem faultKind_code_mem (f : FaultKind) : f.code ∈ [(0x01 : Byte), 0x02, 0x03, 0x04] := by
  cases f <;> decide

/-- A response of R74 to a frame on a port: OK with the payload of the command, or a fault's octet alone. -/
def Answered (p : Port) (octets : List Byte) (r : Option Response) : Prop :=
  (∃ payload, r = some ⟨p, 0x00 :: payload⟩ ∧ payloadFits octets payload)
    ∨ ∃ f : Byte, f ∈ [0x01, 0x02, 0x03, 0x04] ∧ r = some ⟨p, [f]⟩

theorem answered_raise (s : State) (p : Port) (octets : List Byte) (f : FaultKind) :
    Answered p octets (s.raise p f).response :=
  .inr ⟨f.code, faultKind_code_mem f, rfl⟩

/-- A message's payload is its count octets as they came and as many letters (R74, R103). -/
theorem payloadFits_message {op lo hi : Byte} {cs : List Byte} (hop : op = 0x10 ∨ op = 0x11)
    (hlen : cs.length = countOfOctets lo hi) (e : Engine) :
    payloadFits (op :: lo :: hi :: cs) (octetsOfCount cs.length ++ e.cipher cs) := by
  have hcount : octetsOfCount cs.length = [lo, hi] := by rw [hlen, octetsOfCount_countOfOctets]
  have hletters : octet (op :: lo :: hi :: cs) 0 = 0x10 ∨ octet (op :: lo :: hi :: cs) 0 = 0x11 := hop
  rw [payloadFits, if_pos hletters, hcount]
  exact ⟨e.cipher cs, rfl, (e.cipher_length cs).trans hlen, e.lettersOnly_cipher cs⟩

theorem CommandOutcome.answered {s t : State} {i : Instr} {p : Port} {octets : List Byte} (h : CommandOutcome s i t)
    (hframe : CommandFrame p octets i) : Answered p octets t.response := by
  cases h with
  | fault f hport =>
    cases hframe.port_eq.symm.trans hport
    exact answered_raise s p octets f
  | loadkey | repos | wLoad | wStep =>
    cases hframe
    exact .inl ⟨[], rfl, rfl⟩
  | enc =>
    cases hframe with
    | enc hlen => exact .inl ⟨_, rfl, payloadFits_message (.inl rfl) hlen s.engine⟩
  | dec =>
    cases hframe with
    | dec hlen => exact .inl ⟨_, rfl, payloadFits_message (.inr rfl) hlen s.engine⟩
  | @wPeek off =>
    cases hframe
    refine .inl ⟨_, rfl, ?_⟩
    cases s.wheel.peek off.toInt
    · exact .inl rfl
    · exact .inr rfl

/-- Settles O4: a frame is a command, answered as its outcome says, or is refused as BadCommand. -/
theorem everyFrameIsAnsweredWithItsStatusAndPayload : Obligations.EveryFrameIsAnsweredWithItsStatusAndPayload := by
  intro s p octets rest hinputs
  obtain ⟨i, hframe⟩ | ⟨-, e, hdecode⟩ := commandOrRefused p octets
  · obtain ⟨t, hexec, houtcome⟩ := exec_command_outcome hframe.port_eq (s.withInputs rest)
    obtain ⟨hrest, -⟩ := houtcome.inputs_micro
    exact ⟨t, (step_command hinputs hframe.decode_eq).trans hexec, hrest, houtcome.answered hframe⟩
  · exact ⟨_, step_noCommand hinputs hdecode, rfl, answered_raise _ p octets _⟩

end Sys2Proof.Machine
end

section
/-! SUPPORT. Each unit answers its inputs from its own registers (R61, R96), and from those that hold a value alone (V1, V2):
the statements of the family 'other' on what the units share and on what a run shows. -/

namespace Sys2Proof.Machine

open Sys2Proof.Safety

/-! ### Registers that hold a value -/

/-- Two register files of a unit agree where they hold a value: in the flag, and in all else while it is set (V1). -/
def SameWhereKeyed {α : Type} (flag : α → Bool) (a b : α) : Prop := flag a = flag b ∧ (flag a = true → a = b)

theorem SameWhereKeyed.refl {α : Type} (flag : α → Bool) (a : α) : SameWhereKeyed flag a a := ⟨rfl, fun _ => rfl⟩

theorem agreeWhereKeyed_iff {s s' : State} :
    AgreeWhereKeyed s s' ↔ SameWhereKeyed Engine.keyed s.engine s'.engine ∧ SameWhereKeyed WheelUnit.loaded s.wheel s'.wheel
      ∧ s.inputs = s'.inputs ∧ s.response = s'.response ∧ s.micro = s'.micro := by
  simp only [AgreeWhereKeyed, SameWhereKeyed, and_assoc]

/-- What is done to a unit's registers and what is answered rest on the registers that hold a value (V1). -/
def ReadsWhereKeyed {α : Type} (flag : α → Bool) (write : α → α) (answer : α → Option Response) : Prop :=
  ∀ a b, SameWhereKeyed flag a b → SameWhereKeyed flag (write a) (write b) ∧ answer a = answer b

theorem readsWhereKeyed_const {α : Type} (flag : α → Bool) (a : α) (r : Option Response) :
    ReadsWhereKeyed flag (fun _ => a) fun _ => r :=
  fun _ _ _ => ⟨.refl flag a, rfl⟩

theorem readsWhereKeyed_id {α : Type} (flag : α → Bool) (r : Option Response) : ReadsWhereKeyed flag id fun _ => r :=
  fun _ _ h => ⟨h, rfl⟩

/-- Whatever is done under the test of the flag reads only registers that hold a value (R102, R90). -/
theorem readsWhereKeyed_ite {α : Type} (flag : α → Bool) (write : α → α) (answer : α → Option Response)
    (r : Option Response) :
    ReadsWhereKeyed flag (fun a => if flag a then write a else a) fun a => if flag a then answer a else r := by
  intro a b h
  obtain ⟨hflag, heq⟩ := h
  cases ha : flag a with
  | true =>
    obtain rfl := heq ha
    exact ⟨.refl flag _, rfl⟩
  | false =>
    simp only [← hflag, ha]
    exact ⟨⟨hflag, heq⟩, rfl⟩

/-! ### The commands of a unit -/

/-- An instruction is the engine's own: from its registers that hold a value it writes the engine and answers, and nothing
else is written. -/
def ActsOnEngine (i : Instr) : Prop :=
  ∃ write answer, ReadsWhereKeyed Engine.keyed write answer
    ∧ ∀ s, exec i s = .next { s with engine := write s.engine, response := answer s.engine }

/-- An instruction is the Wheel unit's own, in the same way. -/
def ActsOnWheel (i : Instr) : Prop :=
  ∃ write answer, ReadsWhereKeyed WheelUnit.loaded write answer
    ∧ ∀ s, exec i s = .next { s with wheel := write s.wheel, response := answer s.wheel }

theorem actsOnEngine_loadkey (recs : List KeyRecord) : ActsOnEngine (.loadkey recs) := by
  by_cases h : KeyLegal recs
  · obtain ⟨e, he⟩ := Option.isSome_iff_exists.mp ((keyOf_isSome_iff recs).mpr h)
    exact ⟨_, _, readsWhereKeyed_const _ e (some ⟨.engine, [statusOk]⟩), fun s => by simp only [exec, execLoadkey, he]; rfl⟩
  · exact ⟨_, _, readsWhereKeyed_id _ (some ⟨.engine, [0x01]⟩), exec_loadkey_of_illegal h⟩

/-- A command of the engine under the test of its flag (R102). -/
theorem actsOnEngine_of_keyed {i : Instr} (write : Engine → Engine) (answer : Engine → Option Response)
    (hkeyed : ∀ s : State, s.engine.keyed = true →
      exec i s = .next { s with engine := write s.engine, response := answer s.engine })
    (hunkeyed : ∀ s : State, s.engine.keyed = false → exec i s = .next (s.raise .engine .notKeyed)) :
    ActsOnEngine i := by
  refine ⟨_, _, readsWhereKeyed_ite _ write answer (some ⟨.engine, [0x03]⟩), fun s => ?_⟩
  cases hk : s.engine.keyed with
  | true => exact hkeyed s hk
  | false => exact hunkeyed s hk

/-- A command of the Wheel unit under the test of its flag (R90). -/
theorem actsOnWheel_of_loaded {i : Instr} (write : WheelUnit → WheelUnit) (answer : WheelUnit → Option Response)
    (hloaded : ∀ s : State, s.wheel.loaded = true →
      exec i s = .next { s with wheel := write s.wheel, response := answer s.wheel })
    (hunloaded : ∀ s : State, s.wheel.loaded = false → exec i s = .next (s.raise .wheel .notKeyed)) :
    ActsOnWheel i := by
  refine ⟨_, _, readsWhereKeyed_ite _ write answer (some ⟨.wheel, [0x03]⟩), fun s => ?_⟩
  cases hl : s.wheel.loaded with
  | true => exact hloaded s hl
  | false => exact hunloaded s hl

theorem actsOnEngine_repos (ps : List Byte) : ActsOnEngine (.repos ps) := by
  by_cases h : PositionsLegal ps
  · obtain ⟨pos, hpos⟩ := Option.isSome_iff_exists.mp ((positionsOf_isSome_iff ps).mpr h)
    refine actsOnEngine_of_keyed (fun e => { e with pos := pos }) (fun _ => some ⟨.engine, [statusOk]⟩) (fun s hk => ?_)
      fun _ => exec_repos_of_unkeyed ps
    simp only [exec, execRepos, hpos, State.whenKeyed_of_keyed _ hk]
    rfl
  · exact actsOnEngine_of_keyed id (fun _ => some ⟨.engine, [0x01]⟩) (fun _ hk => exec_repos_of_illegal hk h)
      fun _ => exec_repos_of_unkeyed ps

theorem actsOnEngine_message {i : Instr} {cs : List Byte} (hi : i = .enc cs ∨ i = .dec cs) : ActsOnEngine i := by
  by_cases h : LettersOnly cs
  · exact actsOnEngine_of_keyed (fun e => e.afterMessage cs) (fun e => okMessage cs.length (e.cipher cs))
      (fun s hk => (exec_message hi hk).trans (congrArg _ (message_of_letters h s)))
      fun _ => exec_message_of_unkeyed hi
  · exact actsOnEngine_of_keyed id (fun _ => some ⟨.engine, [0x02]⟩)
      (fun s hk => (exec_message hi hk).trans (congrArg _ (message_of_not_letters h s)))
      fun _ => exec_message_of_unkeyed hi

theorem actsOnWheel_wLoad (len pos : Byte) (v : BitVec 32) : ActsOnWheel (.wLoad len pos v) := by
  by_cases h : 1 ≤ len.toNat ∧ len.toNat ≤ 32 ∧ 0 ≤ pos.toInt ∧ pos.toInt < (len.toNat : Int)
  · exact ⟨_, _, readsWhereKeyed_const _ (wheelOfLoad len pos v) (some ⟨.wheel, [statusOk]⟩),
      fun s => (exec_wLoad len pos v s).trans (congrArg _ (if_pos h))⟩
  · exact ⟨_, _, readsWhereKeyed_id _ (some ⟨.wheel, [0x01]⟩),
      fun s => (exec_wLoad len pos v s).trans (congrArg _ (if_neg h))⟩

theorem actsOnEngine_of_port {i : Instr} (hport : i.port = some .engine) : ActsOnEngine i := by
  cases i with
  | loadkey recs => exact actsOnEngine_loadkey recs
  | repos ps => exact actsOnEngine_repos ps
  | enc cs => exact actsOnEngine_message (.inl rfl)
  | dec cs => exact actsOnEngine_message (.inr rfl)
  | wLoad | wPeek | wStep | char | stepall | prestep | poststep | prn | sub => cases hport

theorem actsOnWheel_of_port {i : Instr} (hport : i.port = some .wheel) : ActsOnWheel i := by
  cases i with
  | wLoad len pos v => exact actsOnWheel_wLoad len pos v
  | wPeek off =>
    exact actsOnWheel_of_loaded id (fun w => some ⟨.wheel, [statusOk, pinOctet (w.peek off.toInt)]⟩)
      (fun _ => exec_wPeek_of_loaded off) fun _ => exec_wPeek_of_unloaded off
  | wStep =>
    exact actsOnWheel_of_loaded WheelUnit.step (fun _ => some ⟨.wheel, [statusOk]⟩) (fun _ => exec_wStep_of_loaded)
      fun _ => exec_wStep_of_unloaded
  | loadkey | repos | enc | dec | char | stepall | prestep | poststep | prn | sub => cases hport

/-! ### The inputs of a unit -/

/-- The unit an input is for: that of the port a frame comes on, or the one that is reset (R61, R190). -/
def unitOf : Input → Port
  | .frame p _ => p
  | .reset u => u

/-- An input of the engine acts on it and its sequencer alone, and reads only registers that hold a value. -/
theorem step_engineInput {x : Input} (hx : unitOf x = .engine) :
    ∃ write answer, ∃ sequencer : Option Nat → Option Nat, ReadsWhereKeyed Engine.keyed write answer
      ∧ ∀ (s : State) (rest : List Input), s.inputs = x :: rest → step s = .next { s with
          engine := write s.engine, inputs := rest, response := answer s.engine, micro := sequencer s.micro } := by
  cases x with
  | reset u =>
    cases hx
    exact ⟨_, _, fun _ => none, readsWhereKeyed_const _ Engine.reset none, fun _ _ hinputs => step_reset hinputs⟩
  | frame p octets =>
    cases hx
    obtain ⟨i, hframe⟩ | ⟨-, e, hdecode⟩ := commandOrRefused .engine octets
    · obtain ⟨write, answer, hreads, hexec⟩ := actsOnEngine_of_port hframe.port_eq
      exact ⟨write, answer, id, hreads, fun s rest hinputs => (step_command hinputs hframe.decode_eq).trans (hexec _)⟩
    · exact ⟨_, _, id, readsWhereKeyed_id _ (some ⟨.engine, [0x04]⟩), fun _ _ hinputs => step_noCommand hinputs hdecode⟩

/-- An input of the Wheel unit acts on it alone, and reads only registers that hold a value. -/
theorem step_wheelInput {x : Input} (hx : unitOf x = .wheel) :
    ∃ write answer, ReadsWhereKeyed WheelUnit.loaded write answer
      ∧ ∀ (s : State) (rest : List Input), s.inputs = x :: rest → step s = .next { s with
          wheel := write s.wheel, inputs := rest, response := answer s.wheel } := by
  cases x with
  | reset u =>
    cases hx
    exact ⟨_, _, readsWhereKeyed_const _ WheelUnit.reset none, fun _ _ hinputs => step_reset hinputs⟩
  | frame p octets =>
    cases hx
    obtain ⟨i, hframe⟩ | ⟨-, e, hdecode⟩ := commandOrRefused .wheel octets
    · obtain ⟨write, answer, hreads, hexec⟩ := actsOnWheel_of_port hframe.port_eq
      exact ⟨write, answer, hreads, fun s rest hinputs => (step_command hinputs hframe.decode_eq).trans (hexec _)⟩
    · exact ⟨_, _, readsWhereKeyed_id _ (some ⟨.wheel, [0x04]⟩), fun _ _ hinputs => step_noCommand hinputs hdecode⟩

/-! ### The statements -/

/-- Settles O51: each input acts on its own unit by a function of that unit's registers, whichever comes first. -/
theorem theEngineAndTheWheelUnitShareNothing : Obligations.TheEngineAndTheWheelUnitShareNothing := by
  intro s x y rest hx hy
  have hxunit : unitOf x = .engine := by obtain rfl | ⟨octets, rfl⟩ := hx <;> rfl
  have hyunit : unitOf y = .wheel := by obtain rfl | ⟨octets, rfl⟩ := hy <;> rfl
  obtain ⟨writeE, answerE, sequencer, -, hstepx⟩ := step_engineInput hxunit
  obtain ⟨writeW, answerW, -, hstepy⟩ := step_wheelInput hyunit
  exact ⟨_, _, _, _, hstepx _ _ rfl, hstepy _ _ rfl, hstepy _ _ rfl, hstepx _ _ rfl, rfl, rfl, rfl, rfl, rfl, rfl⟩

theorem observe_eq_of_agree {s s' : State} (h : AgreeWhereKeyed s s') : observe s = observe s' := by
  obtain ⟨⟨hkeyed, hengine⟩, -, -, hresponse, -⟩ := agreeWhereKeyed_iff.mp h
  have hpos : s.posOut = s'.posOut := by
    funext i
    cases hk : s.engine.keyed with
    | true => simp only [State.posOut, hengine hk]
    | false => simp only [State.posOut, ← hkeyed, hk, Bool.false_eq_true, if_false]
  simp only [observe, State.keyedOut, hresponse, hkeyed, hpos]

/-- The next input reads no register without a value, and leaves none where there was a value (V1). -/
theorem agreeWhereKeyed_step {s s' t t' : State} (h : AgreeWhereKeyed s s') (ht : step s = .next t)
    (ht' : step s' = .next t') : AgreeWhereKeyed t t' := by
  obtain ⟨hengine, hwheel, hinputs, -, hmicro⟩ := agreeWhereKeyed_iff.mp h
  rw [agreeWhereKeyed_iff]
  match hs : s.inputs with
  | [] =>
    rw [step_idle hs] at ht
    rw [step_idle (hinputs ▸ hs)] at ht'
    cases ht
    cases ht'
    exact ⟨hengine, hwheel, hinputs, rfl, hmicro⟩
  | x :: rest =>
    cases hx : unitOf x with
    | engine =>
      obtain ⟨write, answer, sequencer, hreads, hstep⟩ := step_engineInput hx
      rw [hstep s rest hs] at ht
      rw [hstep s' rest (hinputs ▸ hs)] at ht'
      cases ht
      cases ht'
      obtain ⟨hwrite, hanswer⟩ := hreads _ _ hengine
      exact ⟨hwrite, hwheel, rfl, hanswer, congrArg sequencer hmicro⟩
    | wheel =>
      obtain ⟨write, answer, hreads, hstep⟩ := step_wheelInput hx
      rw [hstep s rest hs] at ht
      rw [hstep s' rest (hinputs ▸ hs)] at ht'
      cases ht
      cases ht'
      obtain ⟨hwrite, hanswer⟩ := hreads _ _ hwheel
      exact ⟨hengine, hwrite, rfl, hanswer, hmicro⟩

/-- Settles O52: a step keeps the agreement, and what can be seen rests on the registers that agree. -/
theorem registersWithoutAValueAreNeverSeen : Obligations.RegistersWithoutAValueAreNeverSeen := by
  intro s s' t t' h ht ht'
  have hagree := agreeWhereKeyed_step h ht ht'
  exact ⟨hagree, observe_eq_of_agree hagree⟩

theorem agreeWhereKeyed_withInputs {s s' : State} (h : AgreeWhereKeyed s s') (xs : List Input) :
    AgreeWhereKeyed (s.withInputs xs) (s'.withInputs xs) := by
  obtain ⟨hengine, hwheel, -, hresponse, hmicro⟩ := agreeWhereKeyed_iff.mp h
  exact agreeWhereKeyed_iff.mpr ⟨hengine, hwheel, rfl, hresponse, hmicro⟩

theorem observations_cons {x : Input} {s t : State} (h : step (s.withInputs [x]) = .next t) (xs : List Input) :
    observations (x :: xs) s = observe t :: observations xs t := by
  simp only [observations, h]

/-- Settles O53: each step of the run keeps the agreement, so that every observation is the same. -/
theorem equalKeysAndInputsGiveEqualObservations : Obligations.EqualKeysAndInputsGiveEqualObservations := by
  intro xs
  induction xs with
  | nil => exact fun _ _ _ => ⟨rfl, rfl⟩
  | cons x xs ih =>
    intro s s' h
    obtain ⟨t, ht⟩ := step_next (s.withInputs [x])
    obtain ⟨t', ht'⟩ := step_next (s'.withInputs [x])
    have hagree := agreeWhereKeyed_step (agreeWhereKeyed_withInputs h [x]) ht ht'
    obtain ⟨hrest, hlength⟩ := ih t t' hagree
    rw [observations_cons ht, observations_cons ht', observe_eq_of_agree hagree, hrest]
    exact ⟨rfl, by rw [List.length_cons, ← hrest, hlength, List.length_cons]⟩

end Sys2Proof.Machine
end

section
/-! SUPPORT. The indices of the engine's peeks (R42), the movement of a wheel under different keys (R136), the steps of a
message (R32), the pin bits a key takes (R73), and the statements of the family 'other' on these. -/

namespace Sys2Proof.Machine

open Sys2Proof.Safety

/-! ### The effective index -/

/-- The index of a peek is the one cell that differs from the sum by a multiple of the size (R12, R41). -/
theorem pinIndex_eq_of_add_mul {size pos j : Nat} {off q : Int} (hj : j < size)
    (h : (pos : Int) + off = (j : Int) + q * (size : Int)) : pinIndex size pos off = j := by
  rw [pinIndex, h, Int.add_mul_emod_self_right, ← Int.natCast_emod, Nat.mod_eq_of_lt hj, Int.toNat_natCast]

theorem pinIndex_neg_five {size pos : Nat} (hpos : pos < size) (hsize : 5 ≤ size) :
    pinIndex size pos (-5) = if 5 ≤ pos then pos - 5 else pos + size - 5 := by
  split
  · exact pinIndex_eq_of_add_mul (q := 0) (by omega) (by omega)
  · exact pinIndex_eq_of_add_mul (q := -1) (by omega) (by omega)

theorem pinIndex_eight {size pos : Nat} (hpos : pos < size) (hsize : 8 ≤ size) :
    pinIndex size pos 8 = if pos + 8 < size then pos + 8 else pos + 8 - size := by
  split
  · exact pinIndex_eq_of_add_mul (q := 0) (by omega) (by omega)
  · exact pinIndex_eq_of_add_mul (q := 1) (by omega) (by omega)

/-- Settles O36: both offsets wrap at most once, as no wheel has fewer than eight pins. -/
theorem peeksAtMinusFiveAndPlusEightWrapAround : Obligations.PeeksAtMinusFiveAndPlusEightWrapAround := by
  intro e i hpos
  have hsize : 8 ≤ i.size := by cases i <;> decide
  rw [Engine.peek, Engine.peek, pinIndex_neg_five hpos (by omega), pinIndex_eight hpos hsize]
  exact ⟨rfl, rfl⟩

/-! ### A wheel and its left neighbour -/

/-- The extra step of a wheel is its left neighbour's pin at -5 (R130). -/
theorem extra_of_left {i l : WheelIx} (h : i.left = some l) (k : PinRegs) (p : Positions) :
    extra k p i = (pinAt k p l (-5)).toNat := by
  cases i <;> cases h <;> rfl

theorem pinAt_congr {k k' : PinRegs} {p p' : Positions} {l : WheelIx} (hpos : p.get l = p'.get l)
    (hpins : ∀ j, j < l.size → k.pin l j = k'.pin l j) (off : Int) : pinAt k p l off = pinAt k' p' l off := by
  have hindex : pinIndex l.size (p.get l).toNat off < l.size := pinIndex_lt _ _ l.size_pos
  unfold pinAt
  rw [← hpos]
  exact hpins _ hindex

/-- Settles O35: wheel 1 has no left neighbour, and another wheel's extra step reads its left neighbour's pin alone. -/
theorem inAPassAWheelIsMovedByItsLeftNeighbourOnly : Obligations.InAPassAWheelIsMovedByItsLeftNeighbourOnly := by
  intro s s'
  refine ⟨_, _, exec_stepall s, exec_stepall s', ?first, fun i l hleft hself hpos hpins => ?other⟩
  case first => rw [get_passS, passPos_toNat, passSteps_w1]; rfl
  case other =>
    simp only [get_passS, passPos, extra_of_left hleft, hself, pinAt_congr hpos hpins]

/-! ### The steps of a message -/

theorem messageSteps_w1_le (k : PinRegs) (p : Positions) (n : Nat) : messageSteps k p .w1 n ≤ 2 * n := by
  induction n with
  | zero => exact le_rfl
  | succ n ih =>
    have hchar := charSteps_w1_le k (charTn k p n)
    rw [messageSteps]
    omega

theorem messageSteps_bounds (k : PinRegs) (p : Positions) (i : WheelIx) (n : Nat) :
    n ≤ messageSteps k p i n ∧ messageSteps k p i n ≤ 4 * n := by
  induction n with
  | zero => exact ⟨le_rfl, le_rfl⟩
  | succ n ih =>
    have hchar := charSteps_bounds k (charTn k p n) i
    rw [messageSteps]
    omega

/-- The advances of the characters add up, modulo the size (R126). -/
theorem charTn_get_toNat {k : PinRegs} {p : Positions} {i : WheelIx} (h : (p.get i).toNat < i.size) (n : Nat) :
    ((charTn k p n).get i).toNat = ((p.get i).toNat + messageSteps k p i n) % i.size := by
  induction n with
  | zero => exact (Nat.mod_eq_of_lt h).symm
  | succ n ih => rw [charTn, charT_get_toNat, ih, messageSteps, Nat.mod_add_mod, add_assoc]

/-- Settles O27: the bounds of a character hold of each, and the message leaves the positions of `charTn`. -/
theorem aMessageOfNLettersStepsEachWheelNToFourNTimes : Obligations.AMessageOfNLettersStepsEachWheelNToFourNTimes := by
  intro cs s i hi hkeyed hrange hletters
  refine ⟨_, exec_message_of_letters hi hkeyed hletters, messageSteps_w1_le _ _ _, fun w => ?_⟩
  obtain ⟨hlow, hhigh⟩ := messageSteps_bounds s.engine.pins s.engine.pos w cs.length
  exact ⟨hlow, hhigh, charTn_get_toNat (hrange w w.mem_all) _⟩

/-! ### The spare pin bits -/

/-- Two pin files with the same pins are the same. -/
theorem PinRegs.ext_pin {k k' : PinRegs} (h : ∀ i j, j < i.size → k.pin i j = k'.pin i j) : k = k' := by
  obtain ⟨k1, k2, k3, k4, k5, k6⟩ := k
  obtain ⟨l1, l2, l3, l4, l5, l6⟩ := k'
  rw [PinRegs.mk.injEq]
  exact ⟨BitVec.eq_of_getLsbD_eq (h .w1), BitVec.eq_of_getLsbD_eq (h .w2), BitVec.eq_of_getLsbD_eq (h .w3),
    BitVec.eq_of_getLsbD_eq (h .w4), BitVec.eq_of_getLsbD_eq (h .w5), BitVec.eq_of_getLsbD_eq (h .w6)⟩

/-- Two lists of wheel records that differ in no more than the pin bits at and above each record's length (R73). -/
def AlikeBelow (rs rs' : List KeyRecord) : Prop :=
  rs.length = rs'.length ∧ ∀ (k : Nat) (r r' : KeyRecord), rs[k]? = some r → rs'[k]? = some r' →
    r.len = r'.len ∧ r.pos = r'.pos ∧ ∀ j, j < r.len.toNat → r.pins.getLsbD j = r'.pins.getLsbD j

theorem AlikeBelow.symm {rs rs' : List KeyRecord} (h : AlikeBelow rs rs') : AlikeBelow rs' rs := by
  obtain ⟨hlength, hrecords⟩ := h
  refine ⟨hlength.symm, fun k r' r hr' hr => ?_⟩
  obtain ⟨hlen, hpos, hpins⟩ := hrecords k r r' hr hr'
  exact ⟨hlen.symm, hpos.symm, fun j hj => (hpins j (hlen ▸ hj)).symm⟩

theorem AlikeBelow.exists_record {rs rs' : List KeyRecord} (h : AlikeBelow rs rs') {k : Nat} {r : KeyRecord}
    (hr : rs[k]? = some r) : ∃ r', rs'[k]? = some r' ∧ r.len = r'.len ∧ r.pos = r'.pos
      ∧ ∀ j, j < r.len.toNat → r.pins.getLsbD j = r'.pins.getLsbD j := by
  obtain ⟨hlength, hrecords⟩ := h
  obtain ⟨hk, -⟩ := List.getElem?_eq_some_iff.mp hr
  have hr' := List.getElem?_eq_getElem (hlength ▸ hk)
  exact ⟨_, hr', hrecords k r _ hr hr'⟩

theorem AlikeBelow.keyLegal {rs rs' : List KeyRecord} (h : AlikeBelow rs rs') (hlegal : KeyLegal rs) : KeyLegal rs' := by
  obtain ⟨hsix, hrecords⟩ := hlegal
  refine ⟨h.symm.1.trans hsix, fun i r' hr' => ?_⟩
  obtain ⟨r, hr, hlen, hpos, -⟩ := h.symm.exists_record hr'
  rw [hlen, hpos]
  exact hrecords i r hr

/-- A key has no bit beside the pins of its records (R100). -/
theorem AlikeBelow.keyOf_eq {rs rs' : List KeyRecord} (h : AlikeBelow rs rs') : keyOf rs = keyOf rs' := by
  by_cases hlegal : KeyLegal rs
  · obtain ⟨e, he⟩ := Option.isSome_iff_exists.mp ((keyOf_isSome_iff rs).mpr hlegal)
    obtain ⟨e', he'⟩ := Option.isSome_iff_exists.mp ((keyOf_isSome_iff rs').mpr (h.keyLegal hlegal))
    rw [he, he', Option.some.injEq]
    refine Engine.eq_of_registers ?keyed (PinRegs.ext_pin fun i j hj => ?pin) (Positions.ext_get fun i => ?pos)
    case keyed => rw [keyed_of_keyOf he, keyed_of_keyOf he']
    all_goals
      obtain ⟨r, hr, hsize, -⟩ := exists_record_of_keyLegal hlegal i
      obtain ⟨r', hr', -, hpos, hpins⟩ := h.exists_record hr
    case pin => rw [pin_of_keyOf he hr hj, pin_of_keyOf he' hr' hj, hpins j (hsize ▸ hj)]
    case pos => rw [get_of_keyOf he hr, get_of_keyOf he' hr', hpos]
  · have hillegal := mt h.symm.keyLegal hlegal
    rw [← keyOf_isSome_iff, Option.not_isSome_iff_eq_none] at hlegal hillegal
    rw [hlegal, hillegal]

theorem pinsBelow_congr {size : Nat} {v v' : BitVec 32} (h : ∀ j, j < size → v.getLsbD j = v'.getLsbD j) :
    pinsBelow size v = pinsBelow size v' := by
  refine BitVec.eq_of_getLsbD_eq fun j _ => ?_
  rw [getLsbD_pinsBelow, getLsbD_pinsBelow]
  by_cases hj : j < size
  · rw [h j hj]
  · simp [hj]

/-- Settles O14: LOADKEY depends on its key alone, and W.LOAD on the pins below its length. -/
theorem sparePinBitsAreIgnored : Obligations.SparePinBitsAreIgnored := by
  refine ⟨fun rs rs' s hlength hrecords => ?loadkey, fun len pos v v' s hpins => ?wLoad⟩
  case loadkey =>
    have halike : AlikeBelow rs rs' := ⟨hlength, hrecords⟩
    simp only [exec, execLoadkey, halike.keyOf_eq]
  case wLoad => rw [exec_wLoad, exec_wLoad, wheelOfLoad, wheelOfLoad, pinsBelow_congr hpins]

end Sys2Proof.Machine
end

section
/-! SUPPORT. Reset, boot and the status outputs (R28, R33, R190, R193), and the statements of the family 'other' on these. -/

namespace Sys2Proof.Machine

open Sys2Proof.Safety

/-! ### The status outputs -/

theorem State.posOut_of_keyed {s : State} (h : s.engine.keyed = true) (i : WheelIx) :
    s.posOut i = some (s.engine.pos.get i) :=
  if_pos h

theorem State.posOut_of_unkeyed {s : State} (h : s.engine.keyed = false) (i : WheelIx) : s.posOut i = none :=
  if_neg (ne_true_of_eq_false h)

/-- Settles O57: an observation holds the response, the flag and the six position outputs. -/
theorem theStatusOutputsShowTheFlagAndThePositions : Obligations.TheStatusOutputsShowTheFlagAndThePositions := by
  refine fun s => ⟨rfl, fun hkeyed => ⟨State.posOut_of_keyed hkeyed, ?_⟩⟩
  rw [observe, State.keyedOut, hkeyed, funext (State.posOut_of_keyed hkeyed)]
  rfl

/-- Settles O58: each outcome leaves the engine keyed, with the positions its rule gives. -/
theorem theStatusOutputsFollowTheCommands : Obligations.TheStatusOutputsFollowTheCommands := by
  refine ⟨fun recs s hlegal => ?loadkey, fun ps s hkeyed hlegal => ?repos, fun cs s i hi hkeyed => ?message⟩
  case loadkey =>
    obtain ⟨-, hload, -⟩ := loadkeyWritesTheWholeKeyOrNothing recs s
    obtain ⟨e, hexec, hkeyed, hregisters⟩ := hload hlegal
    refine ⟨_, hexec, hkeyed, fun w r hr => ⟨e.pos.get w, State.posOut_of_keyed hkeyed w, ?_⟩⟩
    exact (hregisters w r hr).1
  case repos =>
    obtain ⟨-, hrepos, -⟩ := reposSetsAllSixPositionsOrNone ps s
    obtain ⟨pos, hexec, hpos⟩ := hrepos hkeyed hlegal
    exact ⟨_, hexec, hkeyed, fun w b hb => ⟨pos.get w, if_pos hkeyed, hpos w b hb⟩⟩
  case message =>
    by_cases hletters : LettersOnly cs
    · exact ⟨_, exec_message_of_letters hi hkeyed hletters, hkeyed, fun _ => State.posOut_of_keyed hkeyed,
        fun hbad => absurd hletters hbad⟩
    · exact ⟨_, aMessageWithABadCharacterStepsNoWheel cs s i hi hkeyed hletters, hkeyed,
        fun hgood => absurd hgood hletters, fun _ _ => rfl⟩

/-! ### Reset and boot -/

/-- Settles O1: the reset state holds no key, and an engine without a key shows no position. -/
theorem resetLeavesBothUnitsWithoutKey : Obligations.ResetLeavesBothUnitsWithoutKey :=
  ⟨rfl, rfl, rfl, rfl, rfl, State.posOut_of_unkeyed rfl⟩

/-- Settles O5: the two reset inputs are the two cases of `State.resetUnit`. -/
theorem resetInputClearsItsUnitOnly : Obligations.ResetInputClearsItsUnitOnly := by
  intro s u rest hinputs
  refine ⟨_, step_reset hinputs, State.resetUnit_inputs _ u, State.resetUnit_response _ u, ?_⟩
  cases u with
  | engine => exact ⟨rfl, fun _ => ⟨rfl, rfl, State.posOut_of_unkeyed rfl⟩, by simp⟩
  | wheel => exact ⟨rfl, by simp, fun _ => ⟨rfl, rfl⟩⟩

/-- Settles O6: a step without an input clears the response alone. -/
theorem nothingHappensBetweenCommands : Obligations.NothingHappensBetweenCommands :=
  fun _ hinputs => ⟨_, step_idle hinputs, rfl, rfl, rfl, hinputs, rfl⟩

/-- On the engine port every command but LOADKEY needs a key (R163). -/
theorem needsKey_of_not_loadkey {octets : List Byte} (hcommand : isCommandFrame .engine octets = true)
    (hload : octets.head? ≠ some 0x01) : needsKey octets = true := by
  match octets with
  | [] => cases hcommand
  | op :: rest =>
    by_cases hop : op ∈ portOpcodes .engine
    · simp only [portOpcodes, List.mem_cons, List.not_mem_nil, or_false] at hop
      obtain rfl | rfl | rfl | rfl := hop
      · exact absurd rfl hload
      all_goals rfl
    · simp [isCommandFrame_of_opcode hop] at hcommand

/-- Settles O49: the refused LOADKEY leaves the state but for its response, and the next command finds no key. -/
theorem aRefusedLoadkeyLeavesTheEngineUnkeyed : Obligations.ARefusedLoadkeyLeavesTheEngineUnkeyed := by
  intro s recs octets rest hunkeyed hillegal hinputs hcommand hload
  have hneeds := needsKey_of_not_loadkey hcommand hload
  have hrefused := aUnitWithoutAKeyRefusesAllButLoading (s.raise .engine .invalidArgument) .engine octets rest hinputs
    hcommand hneeds hunkeyed
  exact ⟨_, _, exec_loadkey_of_illegal hillegal s, rfl, hunkeyed, hrefused, rfl, rfl⟩

end Sys2Proof.Machine
end
